-- ==== Sys2Proof/Word.lean ====
section
/-! DEFINITION. The word types of the block: bytes of the buffer, 32-bit registers and operand words, 64-bit response data. -/

namespace Sys2Proof

/-- A byte of the buffer (20_memory.md R40). -/
abbrev Byte := BitVec 8

/-- A 32-bit word: `pos`, `la`, a command word, an operand word (10_state.md R20, 30_encoding.md R60). -/
abbrev Word := BitVec 32

/-- A 64-bit word: the `DATA` of a response (30_encoding.md R60). -/
abbrev Long := BitVec 64

end Sys2Proof
end

