-- ==== Sys2Proof/Syntax.lean ====
section
/-! DEFINITION. The commands: the three words a host issues, and the decoded instruction, one constructor per row
of spec/opcode_table.json (30_encoding.md R61, R62, R64). -/

namespace Sys2Proof

/-- One command as it stands on the command ports (30_encoding.md R60). -/
structure Command where
  /-- `CW`, the command word. -/
  cw : Word
  /-- `ARG0`, the first operand word. -/
  arg0 : Word
  /-- `ARG1`, the second operand word. -/
  arg1 : Word
  deriving DecidableEq, Repr

/-- The instructions, in the order of the opcode map (30_encoding.md R64). The operands are the mathematical
integers the rules compute with (00_scope.md R7, 30_encoding.md R62). -/
inductive Instr where
  /-- `INIT <bit_offset>`: create the cursor (40_cursor_fixed.md R82). -/
  | init (bitOffset : Int)
  /-- `SEEK <n>`: advance by `n` bits (40_cursor_fixed.md R83). -/
  | seek (n : Int)
  /-- `FLUSH`: advance to the next byte boundary (40_cursor_fixed.md R84). -/
  | flush
  /-- `RDBIT`: read one bit (40_cursor_fixed.md R85). -/
  | rdbit
  /-- `RDB <n>`: read an unsigned field of 1..32 bits (40_cursor_fixed.md R86). -/
  | rdb (n : Nat)
  /-- `RDBS <n>`: read a signed field of 1..32 bits (40_cursor_fixed.md R87). -/
  | rdbs (n : Nat)
  /-- `RDB64 <n>`: read an unsigned field of 1..64 bits (40_cursor_fixed.md R89). -/
  | rdb64 (n : Nat)
  /-- `RDB64S <n>`: read a signed field of 1..64 bits (40_cursor_fixed.md R90). -/
  | rdb64s (n : Nat)
  /-- `RDUN`: read a unary code (41_cursor_varlen.md R111). -/
  | rdun
  /-- `RDUNS`: read a zig-zag signed unary code (41_cursor_varlen.md R113). -/
  | rduns
  /-- `RDU8`: read a UTF-8-like integer into 32 bits (41_cursor_varlen.md R122). -/
  | rdu8
  /-- `RDU8S`: the same as a signed 32-bit value (41_cursor_varlen.md R123). -/
  | rdu8s
  /-- `RDU8L`: read a UTF-8-like integer into 64 bits (41_cursor_varlen.md R124). -/
  | rdu8l
  /-- `RDU8LS`: the same as a signed 64-bit value (41_cursor_varlen.md R125). -/
  | rdu8ls
  /-- `GETPOS`: read `bit_position` (40_cursor_fixed.md R96). -/
  | getpos
  /-- `GETLA`: read `lookahead` (40_cursor_fixed.md R97). -/
  | getla
  /-- `CRC8 <offset>, <count>` (42_crc.md R144). -/
  | crc8 (offset count : Nat)
  /-- `CRC16 <offset>, <count>` (42_crc.md R145). -/
  | crc16 (offset count : Nat)
  deriving DecidableEq, Repr

/-- The mnemonic of an instruction, as spec/opcode_table.json spells it. -/
def Instr.mnemonic : Instr → String
  | .init _ => "INIT"
  | .seek _ => "SEEK"
  | .flush => "FLUSH"
  | .rdbit => "RDBIT"
  | .rdb _ => "RDB"
  | .rdbs _ => "RDBS"
  | .rdb64 _ => "RDB64"
  | .rdb64s _ => "RDB64S"
  | .rdun => "RDUN"
  | .rduns => "RDUNS"
  | .rdu8 => "RDU8"
  | .rdu8s => "RDU8S"
  | .rdu8l => "RDU8L"
  | .rdu8ls => "RDU8LS"
  | .getpos => "GETPOS"
  | .getla => "GETLA"
  | .crc8 _ _ => "CRC8"
  | .crc16 _ _ => "CRC16"

/-- The operands of an instruction in source order (30_encoding.md R68). -/
def Instr.operands : Instr → List Int
  | .init bo => [bo]
  | .seek n => [n]
  | .rdb n | .rdbs n | .rdb64 n | .rdb64s n => [(n : Int)]
  | .crc8 off cnt | .crc16 off cnt => [(off : Int), (cnt : Int)]
  | .flush | .rdbit | .rdun | .rduns | .rdu8 | .rdu8s | .rdu8l | .rdu8ls | .getpos | .getla => []

/-- The cursor commands: every command but the two of the CRC unit (10_state.md R21, R30). -/
def Instr.isCursor : Instr → Bool
  | .crc8 _ _ | .crc16 _ _ => false
  | .init _ | .seek _ | .flush | .rdbit | .rdb _ | .rdbs _ | .rdb64 _ | .rdb64s _ | .rdun | .rduns
  | .rdu8 | .rdu8s | .rdu8l | .rdu8ls | .getpos | .getla => true

/-- The INIT command, the only one that may move `pos` backwards (10_state.md R22). -/
def Instr.isInit : Instr → Bool
  | .init _ => true
  | .seek _ | .flush | .rdbit | .rdb _ | .rdbs _ | .rdb64 _ | .rdb64s _ | .rdun | .rduns
  | .rdu8 | .rdu8s | .rdu8l | .rdu8ls | .getpos | .getla | .crc8 _ _ | .crc16 _ _ => false

/-- The commands that use `ARG0` (30_encoding.md R62). -/
def Instr.usesArg0 : Instr → Bool
  | .init _ | .seek _ | .crc8 _ _ | .crc16 _ _ => true
  | .flush | .rdbit | .rdb _ | .rdbs _ | .rdb64 _ | .rdb64s _ | .rdun | .rduns
  | .rdu8 | .rdu8s | .rdu8l | .rdu8ls | .getpos | .getla => false

/-- The commands that use `ARG1` (30_encoding.md R62). -/
def Instr.usesArg1 : Instr → Bool
  | .crc8 _ _ | .crc16 _ _ => true
  | .init _ | .seek _ | .flush | .rdbit | .rdb _ | .rdbs _ | .rdb64 _ | .rdb64s _ | .rdun | .rduns
  | .rdu8 | .rdu8s | .rdu8l | .rdu8ls | .getpos | .getla => false

/-- The commands that consume at least one bit when they succeed: SEEK and every read (10_state.md R22). -/
def Instr.consumes : Instr → Bool
  | .seek _ | .rdbit | .rdb _ | .rdbs _ | .rdb64 _ | .rdb64s _ | .rdun | .rduns
  | .rdu8 | .rdu8s | .rdu8l | .rdu8ls => true
  | .init _ | .flush | .getpos | .getla | .crc8 _ _ | .crc16 _ _ => false

end Sys2Proof
end

