-- ==== Sys2Proof/WellFormed.lean ====
section
/-! DEFINITION. Which instructions a command can carry: the operand ranges of the three command words
(30_encoding.md R61, R62, R68). -/

namespace Sys2Proof

/-- The operand fits `ARG0` read as signed 32-bit (30_encoding.md R62). -/
def fitsSigned32 (v : Int) : Bool := decide (-0x80000000 ≤ v) && decide (v < 0x80000000)

/-- The operand fits a 32-bit word read as unsigned (30_encoding.md R62). -/
def fitsUnsigned32 (v : Nat) : Bool := decide (v < 0x100000000)

/-- The width fits the 8-bit field `N` (30_encoding.md R61). A width outside `[1,32]` or `[1,64]` can be written:
it is refused when the command runs, by OutOfRange. -/
def fitsWidthField (n : Nat) : Bool := decide (n < 0x100)

/-- An instruction is well formed when its operands fit the command's fields (30_encoding.md R62, R68: "The
assembler refuses a width above 255 or an argument that does not fit 32 bits"). -/
def Instr.wellFormed : Instr → Bool
  | .init bo => fitsSigned32 bo
  | .seek n => fitsSigned32 n
  | .rdb n | .rdbs n | .rdb64 n | .rdb64s n => fitsWidthField n
  | .crc8 off cnt | .crc16 off cnt => fitsUnsigned32 off && fitsUnsigned32 cnt
  | .flush | .rdbit | .rdun | .rduns | .rdu8 | .rdu8s | .rdu8l | .rdu8ls | .getpos | .getla => true

end Sys2Proof
end

