-- ==== Sys2Proof/Decode.lean ====
section
/-! DEFINITION. The command word's fields, the decoder (total, every illegal word rejected by name), the encoder,
the opcode table as data, and the host's `decodeTableWord` (30_encoding.md R61 to R65). -/

namespace Sys2Proof

/-- `OP = CW[7:0]` (30_encoding.md R61). -/
def Command.op (c : Command) : Byte := c.cw.extractLsb' 0 8

/-- `N = CW[15:8]` (30_encoding.md R61). -/
def Command.n (c : Command) : Byte := c.cw.extractLsb' 8 8

/-- `RSV = CW[31:16]` (30_encoding.md R61). -/
def Command.rsv (c : Command) : BitVec 16 := c.cw.extractLsb' 16 16

/-- Why a command word is illegal, one name for each reason of 30_encoding.md R65. Every one of them raises
IllegalCommand. -/
inductive DecodeError where
  /-- `OP` is not in the opcode map. -/
  | reservedOpcode (op : Byte)
  /-- `RSV != 0`. -/
  | reservedBits
  /-- `N != 0` on a command that takes no width. -/
  | widthOnPlainCommand
  deriving DecidableEq, Repr

/-- A row without a width operand: `N` must be 0 (30_encoding.md R61, R65). -/
def plainRow (c : Command) (i : Instr) : Except DecodeError Instr :=
  if c.n = 0 then .ok i else .error .widthOnPlainCommand

/-- The decoder (30_encoding.md R62, R64, R65): it needs only `CW` to select a row; `ARG0` is signed for INIT and
SEEK and unsigned for the CRC commands; the operand words other commands do not use are ignored. -/
def decode (c : Command) : Except DecodeError Instr :=
  if c.rsv ≠ 0 then .error .reservedBits
  else match c.op.toNat with
    | 0x01 => plainRow c (.init c.arg0.toInt)
    | 0x02 => plainRow c (.seek c.arg0.toInt)
    | 0x03 => plainRow c .flush
    | 0x04 => plainRow c .rdbit
    | 0x05 => .ok (.rdb c.n.toNat)
    | 0x06 => .ok (.rdbs c.n.toNat)
    | 0x07 => .ok (.rdb64 c.n.toNat)
    | 0x08 => .ok (.rdb64s c.n.toNat)
    | 0x09 => plainRow c .rdun
    | 0x0A => plainRow c .rduns
    | 0x0B => plainRow c .rdu8
    | 0x0C => plainRow c .rdu8s
    | 0x0D => plainRow c .rdu8l
    | 0x0E => plainRow c .rdu8ls
    | 0x0F => plainRow c .getpos
    | 0x10 => plainRow c .getla
    | 0x20 => plainRow c (.crc8 c.arg0.toNat c.arg1.toNat)
    | 0x21 => plainRow c (.crc16 c.arg0.toNat c.arg1.toNat)
    | _ => .error (.reservedOpcode c.op)

/-- A command word from its fields, `RSV = 0` (30_encoding.md R61). -/
def commandWord (op n : Byte) : Word := ((0 : BitVec 16) ++ n) ++ op

/-- The opcode of an instruction (30_encoding.md R64). -/
def Instr.opcode : Instr → Byte
  | .init _ => 0x01
  | .seek _ => 0x02
  | .flush => 0x03
  | .rdbit => 0x04
  | .rdb _ => 0x05
  | .rdbs _ => 0x06
  | .rdb64 _ => 0x07
  | .rdb64s _ => 0x08
  | .rdun => 0x09
  | .rduns => 0x0A
  | .rdu8 => 0x0B
  | .rdu8s => 0x0C
  | .rdu8l => 0x0D
  | .rdu8ls => 0x0E
  | .getpos => 0x0F
  | .getla => 0x10
  | .crc8 _ _ => 0x20
  | .crc16 _ _ => 0x21

/-- The width field `N` of an instruction: its width, or 0 for a command that takes none (30_encoding.md R62). -/
def Instr.widthField : Instr → Byte
  | .rdb n | .rdbs n | .rdb64 n | .rdb64s n => BitVec.ofNat 8 n
  | .init _ | .seek _ | .flush | .rdbit | .rdun | .rduns | .rdu8 | .rdu8s | .rdu8l | .rdu8ls
  | .getpos | .getla | .crc8 _ _ | .crc16 _ _ => 0

/-- `ARG0` of an instruction (30_encoding.md R62). An operand word the command ignores is written as 0. DESIGN
CHOICE (log 11): safe. -/
def Instr.arg0 : Instr → Word
  | .init bo => BitVec.ofInt 32 bo
  | .seek n => BitVec.ofInt 32 n
  | .crc8 off _ | .crc16 off _ => BitVec.ofNat 32 off
  | .flush | .rdbit | .rdb _ | .rdbs _ | .rdb64 _ | .rdb64s _ | .rdun | .rduns | .rdu8 | .rdu8s | .rdu8l
  | .rdu8ls | .getpos | .getla => 0

/-- `ARG1` of an instruction (30_encoding.md R62), 0 where it is ignored (log 11). -/
def Instr.arg1 : Instr → Word
  | .crc8 _ cnt | .crc16 _ cnt => BitVec.ofNat 32 cnt
  | .init _ | .seek _ | .flush | .rdbit | .rdb _ | .rdbs _ | .rdb64 _ | .rdb64s _ | .rdun | .rduns
  | .rdu8 | .rdu8s | .rdu8l | .rdu8ls | .getpos | .getla => 0

/-- The three words of an instruction (30_encoding.md R61, R62, R64). -/
def encode (i : Instr) : Command := ⟨commandWord i.opcode i.widthField, i.arg0, i.arg1⟩

/-- A row of spec/opcode_table.json: a word is the row's when it agrees with `value` on the bits of `mask`. -/
structure OpcodeRow where
  /-- The row's mnemonic. -/
  mnemonic : String
  /-- The row's `match`. -/
  value : Word
  /-- The row's `mask`. -/
  mask : Word
  deriving DecidableEq, Repr

/-- The word selects this row (30_encoding.md R64). -/
def OpcodeRow.selects (r : OpcodeRow) (cw : Word) : Bool := cw &&& r.mask == r.value

/-- The opcode map (30_encoding.md R64, spec/opcode_table.json). -/
def opcodeTable : List OpcodeRow :=
  [⟨"INIT", 0x00000001, 0xFFFFFFFF⟩, ⟨"SEEK", 0x00000002, 0xFFFFFFFF⟩, ⟨"FLUSH", 0x00000003, 0xFFFFFFFF⟩,
   ⟨"RDBIT", 0x00000004, 0xFFFFFFFF⟩, ⟨"RDB", 0x00000005, 0xFFFF00FF⟩, ⟨"RDBS", 0x00000006, 0xFFFF00FF⟩,
   ⟨"RDB64", 0x00000007, 0xFFFF00FF⟩, ⟨"RDB64S", 0x00000008, 0xFFFF00FF⟩, ⟨"RDUN", 0x00000009, 0xFFFFFFFF⟩] ++
  [⟨"RDUNS", 0x0000000A, 0xFFFFFFFF⟩, ⟨"RDU8", 0x0000000B, 0xFFFFFFFF⟩, ⟨"RDU8S", 0x0000000C, 0xFFFFFFFF⟩,
   ⟨"RDU8L", 0x0000000D, 0xFFFFFFFF⟩, ⟨"RDU8LS", 0x0000000E, 0xFFFFFFFF⟩, ⟨"GETPOS", 0x0000000F, 0xFFFFFFFF⟩,
   ⟨"GETLA", 0x00000010, 0xFFFFFFFF⟩, ⟨"CRC8", 0x00000020, 0xFFFFFFFF⟩, ⟨"CRC16", 0x00000021, 0xFFFFFFFF⟩]

/-- The command whose bits, numbered as spec/opcode_table.json numbers them, are the low `nbits` bits of `w`: bits
31..0 are `CW`, bits 63..32 `ARG0`, bits 95..64 `ARG1`, and every bit above `nbits` is 0. DESIGN CHOICE (log 14). -/
def commandOfTableWord (nbits w : Nat) : Command :=
  let v := w % 2 ^ nbits
  ⟨BitVec.ofNat 32 v, BitVec.ofNat 32 (v / 2 ^ 32), BitVec.ofNat 32 (v / 2 ^ 64)⟩

/-- The instruction the decoder reads from those bits; none where it refuses them. -/
def decodeTableWord (nbits w : Nat) : Option Instr :=
  match decode (commandOfTableWord nbits w) with
  | .ok i => some i
  | .error _ => none

end Sys2Proof
end

