-- ==== Sys2Proof/Config.lean ====
section
/-! DEFINITION. What is fixed for the block (00_scope.md R6) and its one family of free values, the PAD draws. -/

namespace Sys2Proof

/-- The largest buffer length in bytes: `0 <= L <= 2^28` (00_scope.md R6). -/
def Config.maxLen : Nat := 2 ^ 28

/-- `CRC8_POLY`, with the implicit leading term (00_scope.md R6, 42_crc.md R140). -/
def Config.crc8Poly : Nat := 0x107

/-- `CRC16_POLY`, with the implicit leading term (00_scope.md R6, 42_crc.md R140). -/
def Config.crc16Poly : Nat := 0x18005

/-- The draws `PAD`: the byte a reload reads at an offset `>= L`, any value, under no law (20_memory.md R40,
R41). It has no body: nothing can evaluate it. The argument is the index of the draw; the reload numbered `d`
uses the indices `4 * d .. 4 * d + 3`, so no two reloads share a draw. It stands for every draw that the
state's own field `draws` does not name. DESIGN CHOICE (log 3): safe. -/
opaque Config.pad : Nat → Byte

end Sys2Proof
end

