-- ==== Sys2Proof/Machine/Memory.lean ====
section
/-! DEFINITION. The buffer memory: the run's fixed bytes `BUF[0 .. L-1]` in one canonical form, the byte read, the
big-endian 4-byte read, the reload, and the stream bits (20_memory.md R40 to R44). -/

namespace Sys2Proof.Machine

/-- The buffer of a run: its length `L` and its contents as (offset, byte) pairs (10_state.md R28, 20_memory.md
R40). The block never writes it (20_memory.md R47). -/
structure Memory where
  /-- The bytes that differ from `Memory.unlisted`, offsets strictly rising. -/
  cells : List Host.Cell
  /-- `L`, the buffer length in bytes. -/
  len : Nat
  deriving DecidableEq, Repr

/-- What an offset below `L` that `cells` does not list reads as. Every content of every length is still one
`Memory`, and only one. DESIGN CHOICE (log 6): unsafe. -/
def Memory.unlisted : Byte := 0

/-- The byte the list gives for an offset. -/
def cellAt : List Host.Cell → Nat → Byte
  | [], _ => Memory.unlisted
  | (a, b) :: cs, i => if a = i then b else cellAt cs i

/-- `BUF[i]` for `i < L` (20_memory.md R40). -/
def Memory.byteAt (m : Memory) (i : Nat) : Byte := cellAt m.cells i

/-- The offsets rise strictly, from `lo` on. -/
def cellsRise : Nat → List Host.Cell → Bool
  | _, [] => true
  | lo, (a, _) :: cs => decide (lo ≤ a) && cellsRise (a + 1) cs

/-- The canonical form: `L` is in range (00_scope.md R6), the offsets rise strictly and lie in the buffer, and no
entry is what an unlisted offset reads as. -/
def Memory.wf (m : Memory) : Bool :=
  decide (m.len ≤ Config.maxLen) && cellsRise 0 m.cells &&
    m.cells.all fun c => decide (c.1 < m.len) && decide (c.2 ≠ Memory.unlisted)

/-- The cells of a byte list laid out from an offset on. -/
def cellsOfBytes : Nat → List Byte → List Host.Cell
  | _, [] => []
  | i, b :: bs => if b = Memory.unlisted then cellsOfBytes (i + 1) bs else (i, b) :: cellsOfBytes (i + 1) bs

/-- The buffer that holds exactly these bytes: what the host fixes before a run (70_reset_and_hazards.md R181). -/
def Memory.ofBytes (bs : List Byte) : Memory := ⟨cellsOfBytes 0 bs, bs.length⟩

/-- The draw `PAD` numbered `j`: the one the run names, or else the free value `Config.pad j` (20_memory.md R40,
R41; log 3). -/
def padByte (draws : List Byte) (j : Nat) : Byte := draws[j]?.getD (Config.pad j)

/-- `MemRead(i, 1)` (20_memory.md R40): `BUF[i]` inside the buffer, the draw numbered `j` past its end. It never
faults. -/
def Memory.read (m : Memory) (draws : List Byte) (j i : Nat) : Byte :=
  if i < m.len then m.byteAt i else padByte draws j

/-- `MemRead(i, 4)` of the reload numbered `d` (20_memory.md R41, R42): big-endian, byte `i` most significant, a
draw of its own for each byte past the end. -/
def Memory.read4 (m : Memory) (draws : List Byte) (d i : Nat) : Word :=
  ((m.read draws (4 * d) i ++ m.read draws (4 * d + 1) (i + 1)) ++ m.read draws (4 * d + 2) (i + 2)) ++
    m.read draws (4 * d + 3) (i + 3)

/-- `Reload(q)` as the reload numbered `d` computes it (20_memory.md R43, 00_scope.md R9). -/
def Memory.reload (m : Memory) (draws : List Byte) (d q : Nat) : Word := m.read4 draws d (q / 8) <<< (q % 8)

/-- Stream bit `q`: bit `7 - (q mod 8)` of byte `BUF[q >> 3]` (20_memory.md R44). -/
def Memory.streamBit (m : Memory) (q : Nat) : Bool := (m.byteAt (q / 8)).getLsbD (7 - q % 8)

/-- One of the `n` stream bits from `q` on is set (20_memory.md R45, 41_cursor_varlen.md R111). -/
def Memory.anySet (m : Memory) : Nat → Nat → Bool
  | 0, _ => false
  | n + 1, q => m.streamBit q || m.anySet n (q + 1)

/-- `Field(q, n)`: the unsigned value of stream bits `q .. q+n-1`, the first bit most significant (20_memory.md
R44). -/
def Memory.field (m : Memory) (q n : Nat) : Nat :=
  ((List.range n).map fun j => (m.streamBit (q + j)).toNat * 2 ^ (n - 1 - j)).sum

end Sys2Proof.Machine
end

