-- ==== Sys2Proof/Machine/Tables.lean ====
section
/-! DEFINITION. The constant tables: the leading-zero table of 41_cursor_varlen.md R110 and the two CRC tables of
42_crc.md R140 to R143. -/

namespace Sys2Proof.Machine

/-- One iteration of the table construction on the unbounded integer `c`: "XOR-ing with poly whenever the top bit
is set" (42_crc.md R140). -/
def crcDivStep (w poly c : Nat) : Nat :=
  if c.testBit (w - 1) then (c <<< 1) ^^^ poly else c <<< 1

/-- The entry for the byte `i`: `w` iterations, then "mask to w bits at the end" (42_crc.md R140). -/
def crcEntry (w poly i : Nat) : BitVec w := BitVec.ofNat w (Nat.repeat (crcDivStep w poly) w i)

/-- `Build(w, poly)` (42_crc.md R140). -/
def crcBuild (w poly : Nat) : Vector (BitVec w) 256 := Vector.ofFn fun i => crcEntry w poly i.val

/-- The table `T8` (42_crc.md R142). -/
def crc8Table : Vector (BitVec 8) 256 := crcBuild 8 Config.crc8Poly

/-- The table `T16` (42_crc.md R143). -/
def crc16Table : Vector (BitVec 16) 256 := crcBuild 16 Config.crc16Poly

/-- The number of leading zero bits of an 8-bit value, by the ranges of 41_cursor_varlen.md R110. -/
def leadingZeros8 (v : Nat) : BitVec 4 :=
  if v = 0 then 8
  else if v < 0x02 then 7
  else if v < 0x04 then 6
  else if v < 0x08 then 5
  else if v < 0x10 then 4
  else if v < 0x20 then 3
  else if v < 0x40 then 2
  else if v < 0x80 then 1
  else 0

/-- The table `LZ8` (41_cursor_varlen.md R110). -/
def leadingZeroTable : Vector (BitVec 4) 256 := Vector.ofFn fun i => leadingZeros8 i.val

/-- The entry of a 256-entry table at a byte: every byte is an index, so no look-up misses. -/
def tableAt {w : Nat} (t : Vector (BitVec w) 256) (i : Byte) : BitVec w :=
  t[i.toNat]'(i.isLt)

end Sys2Proof.Machine
end

