-- ==== Sys2Proof/Machine/State.lean ====
section
/-! DEFINITION. The machine's state as plain data (10_state.md R20 to R29), its errors and responses, the ways a
step can stop, and the state after reset. -/

namespace Sys2Proof.Machine

/-- The error causes of 60_exceptions.md R160. -/
inductive ErrorKind where
  /-- Code 1: INIT on an empty buffer, a negative offset, or an offset beyond the buffer. -/
  | invalidArgument
  /-- Code 2: a width, a SEEK count or a CRC range out of range. -/
  | outOfRange
  /-- Code 3: the command would consume or seek past bit `8*L`. -/
  | endOfStream
  /-- Code 4: a cursor command other than INIT while `init = 0`. -/
  | notInitialised
  /-- Code 5: an illegal command word. -/
  | illegalCommand
  deriving DecidableEq, Repr

/-- A response on the response ports (30_encoding.md R60, R66). -/
structure Response where
  /-- `ERR`, 0 for none. -/
  err : BitVec 3
  /-- `VALID`: `DATA` is a valid result. -/
  valid : Bool
  /-- `DATA`, the result value. -/
  data : Long
  deriving DecidableEq, Repr

/-- The machine's state: the block's own state (10_state.md R20), the run's fixed buffer (R28), the command list
and the index into it (R27), the responses produced (70_reset_and_hazards.md R184), and the model's own fields
for the draws and the memory-port reads. -/
structure State where
  /-- `init`: a cursor exists (10_state.md R21). -/
  init : Bool
  /-- `pos`, the bit position (10_state.md R22). -/
  pos : Word
  /-- `la`, the lookahead, left-justified (10_state.md R23). -/
  la : Word
  /-- `T8`, constant (42_crc.md R142). -/
  t8 : Vector (BitVec 8) 256
  /-- `T16`, constant (42_crc.md R143). -/
  t16 : Vector (BitVec 16) 256
  /-- `LZ8`, constant (41_cursor_varlen.md R110). -/
  lz8 : Vector (BitVec 4) 256
  /-- `BUF` and `L`, fixed for the run (10_state.md R28). -/
  buf : Memory
  /-- The host's command list (10_state.md R27). -/
  program : List Command
  /-- The index of the next command (10_state.md R27). -/
  k : Nat
  /-- The responses so far, oldest first (70_reset_and_hazards.md R184). DESIGN CHOICE (log 8): safe. -/
  responses : List Response
  /-- The model's own field: the first draws `PAD` of the run, by their numbers; those it does not name are free
  (20_memory.md R41). Nothing writes it. DESIGN CHOICE (log 3): safe. -/
  draws : List Byte
  /-- The model's own counter of reloads: it numbers the PAD draws (20_memory.md R41) and shows the counts of
  R50. DESIGN CHOICE (log 3, log 10): safe. -/
  reloads : Nat
  /-- The model's own counter of the CRC unit's byte reads (20_memory.md R50). DESIGN CHOICE (log 10): safe. -/
  crcReads : Nat
  deriving DecidableEq, Repr

/-- Why a step can stop. The block's own errors are no stops: they are responses (60_exceptions.md R161, log 1). -/
inductive Fault where
  /-- Raised by `step` when no command is left: the run has ended (70_reset_and_hazards.md R184). Safe (log 2). -/
  | runEnded
  deriving DecidableEq, Repr

/-- Why the model can refuse an instruction. -/
inductive Refusal where
  /-- Raised by an arm of `exec` for an instruction that has no meaning yet; no arm does. Safe. -/
  | notModelled (mnemonic : String)
  deriving DecidableEq, Repr

/-- What a command answers: a next state, a fault or a refusal. -/
abbrev Result := Host.Outcome State Fault Refusal

/-- The machine right after a reset (10_state.md R29, 70_reset_and_hazards.md R180): no cursor, the tables at their
constant contents, and `pos` and `la` at the two given words, since the spec leaves them unspecified. The run's
buffer and command list, and the model's own fields, are given too. -/
def State.afterReset (pos la : Word) (buf : Memory) (program : List Command) (draws : List Byte)
    (reloads crcReads : Nat) : State where
  init := false
  pos := pos
  la := la
  t8 := crc8Table
  t16 := crc16Table
  lz8 := leadingZeroTable
  buf := buf
  program := program
  k := 0
  responses := []
  draws := draws
  reloads := reloads
  crcReads := crcReads

/-- The machine right after reset with nothing placed: `pos` and `la` are 0 (DESIGN CHOICE, log 4: unsafe, but
nothing can observe them while `init = 0`), the buffer is empty and the command list too (DESIGN CHOICE, log 5). -/
def State.reset : State := State.afterReset 0 0 ⟨[], 0⟩ [] [] 0 0

end Sys2Proof.Machine
end

