-- ==== Sys2Proof/Machine/Flags.lean ====
section
/-! DEFINITION. The response of a command: the `ERR` code, the `VALID` flag (the block's only flag, 10_state.md R26)
and `DATA`, by the table of 30_encoding.md R66. -/

namespace Sys2Proof.Machine

/-- The code of an error on `ERR` (60_exceptions.md R160). -/
def ErrorKind.code : ErrorKind → BitVec 3
  | .invalidArgument => 1
  | .outOfRange => 2
  | .endOfStream => 3
  | .notInitialised => 4
  | .illegalCommand => 5

/-- Success without a result: INIT, SEEK, FLUSH (30_encoding.md R66). -/
def Response.done : Response := ⟨0, true, 0⟩

/-- Success with a result of `w` bits, zero-extended into `DATA` (30_encoding.md R66). -/
def Response.value {w : Nat} (v : BitVec w) : Response := ⟨0, true, v.setWidth 64⟩

/-- The UTF-8 pattern failure: no error, `VALID = 0`, and the sentinel, zero-extended (30_encoding.md R66,
60_exceptions.md R163). -/
def Response.failed {w : Nat} (sentinel : BitVec w) : Response := ⟨0, false, sentinel.setWidth 64⟩

/-- The error response: `ERR = code`, `VALID = 0`, `DATA = 0` (60_exceptions.md R161). -/
def Response.error (e : ErrorKind) : Response := ⟨e.code, false, 0⟩

end Sys2Proof.Machine
end

