-- ==== Sys2Proof/Machine/Operands.lean ====
section
/-! DEFINITION. The bit-field, sign-extension and zig-zag helpers of the commands (00_scope.md R7), and the leading
byte of a UTF-8-like integer (41_cursor_varlen.md R120). -/

namespace Sys2Proof.Machine

/-- `la >> (32 - n)`: the top `n` bits of the lookahead, right-justified (40_cursor_fixed.md R86). -/
def topBits (la : Word) (n : Nat) : Word := la >>> (32 - n)

/-- `la[31:24]` (41_cursor_varlen.md R111). -/
def topByte (la : Word) : Byte := la.extractLsb' 24 8

/-- `as_signed_32(trunc_32(u << (32 - n))) >>s (32 - n)`: the sign extension of RDBS (40_cursor_fixed.md R87). -/
def signExtend32 (u : Word) (n : Nat) : Word := (u <<< (32 - n)).sshiftRight (32 - n)

/-- `sext_64(x, n)`: the low `n` bits as a signed value, extended to 64 bits (00_scope.md R7, 40_cursor_fixed.md
R90). -/
def signExtend64 (x : Long) (n : Nat) : Long := (x.setWidth n).signExtend 64

/-- `as_signed_N` and back: a signed value is its two's-complement pattern, "no zig-zag; true two's-complement
cast" (41_cursor_varlen.md R123, R125). -/
def signedPattern {w : Nat} (v : BitVec w) : BitVec w := BitVec.ofInt w v.toInt

/-- The zig-zag map `(v >> 1) XOR trunc_32(-(v AND 1))` (41_cursor_varlen.md R113). -/
def zigzag (v : Word) : Word := (v >>> 1) ^^^ (-(v &&& 1))

/-- The leading byte's count of continuation bytes and its value bits; none for a failure pattern
(41_cursor_varlen.md R120; the `0xFE` row by 90_conflicts.md C2). -/
def leadByte (x : Byte) : Option (Nat × Byte) :=
  if x &&& 0x80 = 0x00 then some (0, x &&& 0x7F)
  else if x &&& 0xC0 = 0x80 then none
  else if x &&& 0xE0 = 0xC0 then some (1, x &&& 0x1F)
  else if x &&& 0xF0 = 0xE0 then some (2, x &&& 0x0F)
  else if x &&& 0xF8 = 0xF0 then some (3, x &&& 0x07)
  else if x &&& 0xFC = 0xF8 then some (4, x &&& 0x03)
  else if x &&& 0xFE = 0xFC then some (5, x &&& 0x01)
  else if x = 0xFE then some (6, 0)
  else none

/-- A continuation byte matches `10xxxxxx` (41_cursor_varlen.md R120). -/
def isContinuation (c : Byte) : Bool := c &&& 0xC0 == 0x80

/-- `(v << 6) OR c[5:0]` (41_cursor_varlen.md R121). -/
def appendContinuation {w : Nat} (v : BitVec w) (c : Byte) : BitVec w := (v <<< 6) ||| (c &&& 0x3F).setWidth w

end Sys2Proof.Machine
end

