-- ==== Sys2Proof/Machine/Ops.lean ====
section
/-! DEFINITION. The named operations every command is built from: answering a command, raising an error, the reload,
the internal seek, the common checks, the field read, the command fetch, and what the host does to the machine. -/

namespace Sys2Proof.Machine

/-- `8*L`, the bit position of the buffer's end (10_state.md R22). -/
def State.bitLen (s : State) : Nat := 8 * s.buf.len

/-- The command's response is produced and the next command is the next of the list (10_state.md R27,
70_reset_and_hazards.md R184). -/
def State.answer (s : State) (r : Response) : State := { s with responses := s.responses ++ [r], k := s.k + 1 }

/-- `respond(data, valid)`: the command ends successfully (00_scope.md R8). -/
def respond (r : Response) (s : State) : Result := .next (s.answer r)

/-- `raise E`: the one shared operation that takes an error (00_scope.md R8, 60_exceptions.md R161). Called on the
state at the start of the command, it writes none of `init`, `pos`, `la`: no state is saved, there is no vector and
no handler to go to (R165), and the next command is taken as usual. There is no return from it. -/
def raise (e : ErrorKind) (s : State) : Result := .next (s.answer (.error e))

/-- `pos <- q` (00_scope.md R8). The rules keep `q` within 32 bits (10_state.md R22). -/
def State.setPos (s : State) (q : Nat) : State := { s with pos := BitVec.ofNat 32 q }

/-- `la <- Reload(pos)`: a fresh reload with draws of its own (20_memory.md R41, R43). -/
def State.reload (s : State) : State :=
  { s with la := s.buf.reload s.draws s.reloads s.pos.toNat, reloads := s.reloads + 1 }

/-- `Step(k)`, the internal seek (40_cursor_fixed.md R80): `pos <- pos + k; la <- Reload(pos)`. -/
def State.advance (s : State) (k : Nat) : State := (s.setPos (s.pos.toNat + k)).reload

/-- The common checks of a fixed-width read of `n` bits, at most `max`, in the order of 40_cursor_fixed.md R81:
NotInitialised, then OutOfRange, then EndOfStream. -/
def fieldError (max n : Nat) (s : State) : Option ErrorKind :=
  if s.init = false then some .notInitialised
  else if n < 1 ∨ max < n then some .outOfRange
  else if s.bitLen < s.pos.toNat + n then some .endOfStream
  else none

/-- `ReadCore(n)` for `1 <= n <= 32` (40_cursor_fixed.md R86): up to 24 bits from one lookahead load, a longer read
split into 24 bits and the rest. -/
def readCore (n : Nat) (s : State) : Word × State :=
  if n ≤ 24 then (topBits s.la n, s.advance n)
  else
    let hi := s.la >>> 8
    let s1 := s.advance 24
    let lo := topBits s1.la (n - 24)
    ((hi <<< (n - 24)) ||| lo, s1.advance (n - 24))

/-- The next command of the host's list (10_state.md R27); none when the run has ended (70_reset_and_hazards.md
R184). Commands reach the block by its command interface, not from memory (20_memory.md R56). -/
def fetch (s : State) : Option Command := s.program[s.k]?

/-- The state with this command as the next one of the list, everything else as it was. If the list is too short to
have a next place, the places before it are filled with the same command (log 7). -/
def State.withCommand (s : State) (c : Command) : State :=
  { s with program :=
      s.program.take s.k ++ List.replicate (s.k - s.program.length) c ++ c :: s.program.drop (s.k + 1) }

/-- The start of a run (70_reset_and_hazards.md R181, R184): after reset, with the buffer fixed, the command list
given and the first draws named (log 3, log 5). -/
def State.launch (buf : Memory) (program : List Command) (draws : List Byte) : State :=
  { State.reset with buf := buf, program := program, draws := draws }

/-- RESET asserted at a state, with the command in progress, if any, discarded without a response or a partial effect
(70_reset_and_hazards.md R180): the reset state over the same buffer, with the host's new command list. `pos` and
`la` become any two words. The draws stay fresh: the model's counters go on (log 12). -/
def State.assertReset (s : State) (pos la : Word) (program : List Command) : State :=
  State.afterReset pos la s.buf program s.draws s.reloads s.crcReads

end Sys2Proof.Machine
end

