-- ==== Sys2Proof/Machine/Checksum.lean ====
section
/-! DEFINITION. The CRC unit: CRC8 and CRC16 (42_crc.md R144 to R147). It neither reads nor writes `init`, `pos` or
`la` (20_memory.md R58). -/

namespace Sys2Proof.Machine

/-- `r = T8[r XOR byte]` (42_crc.md R144). -/
def crc8Step (t8 : Vector (BitVec 8) 256) (r : BitVec 8) (b : Byte) : BitVec 8 := tableAt t8 (r ^^^ b)

/-- `r = trunc_16((r << 8) XOR T16[(r >> 8) XOR byte])` (42_crc.md R145). -/
def crc16Step (t16 : Vector (BitVec 16) 256) (r : BitVec 16) (b : Byte) : BitVec 16 :=
  (r <<< 8) ^^^ tableAt t16 ((r >>> 8).setWidth 8 ^^^ b)

/-- The loop over `cnt` bytes from `off` on, ascending, one byte per step (42_crc.md R144, R145). Every byte lies in
the buffer, so no step draws (log 18). -/
def crcLoop {w : Nat} (stepByte : BitVec w → Byte → BitVec w) (m : Memory) : (off cnt : Nat) → BitVec w → BitVec w
  | _, 0, r => r
  | off, cnt + 1, r => crcLoop stepByte m (off + 1) cnt (stepByte r (m.byteAt off))

/-- The CRC unit has read `cnt` bytes over the memory port (20_memory.md R50; log 10). -/
def State.countCrcReads (s : State) (cnt : Nat) : State := { s with crcReads := s.crcReads + cnt }

/-- CRC8 (42_crc.md R144): the range check, then the loop from 0; "no reflection, no final XOR". -/
def execCrc8 (off cnt : Nat) (s : State) : Result :=
  if s.buf.len < off + cnt then raise .outOfRange s
  else respond (.value (crcLoop (crc8Step s.t8) s.buf off cnt 0)) (s.countCrcReads cnt)

/-- CRC16 (42_crc.md R145). -/
def execCrc16 (off cnt : Nat) (s : State) : Result :=
  if s.buf.len < off + cnt then raise .outOfRange s
  else respond (.value (crcLoop (crc16Step s.t16) s.buf off cnt 0)) (s.countCrcReads cnt)

end Sys2Proof.Machine
end

