-- ==== Sys2Proof/Machine/FixedRead.lean ====
section
/-! DEFINITION. The fixed-width reads: RDBIT, RDB, RDBS, RDB64, RDB64S (40_cursor_fixed.md R85 to R90). -/

namespace Sys2Proof.Machine

/-- RDBIT (40_cursor_fixed.md R85): `la[31]`, then one bit forward. -/
def execRdbit (s : State) : Result :=
  if s.init = false then raise .notInitialised s
  else if s.bitLen < s.pos.toNat + 1 then raise .endOfStream s
  else respond (.value (s.la.extractLsb' 31 1)) (s.advance 1)

/-- RDB (40_cursor_fixed.md R86). -/
def execRdb (n : Nat) (s : State) : Result :=
  match fieldError 32 n s with
  | some e => raise e s
  | none => respond (.value (readCore n s).1) (readCore n s).2

/-- RDBS (40_cursor_fixed.md R87): the 32-bit two's-complement pattern of the sign-extended field. -/
def execRdbs (n : Nat) (s : State) : Result :=
  match fieldError 32 n s with
  | some e => raise e s
  | none => respond (.value (signExtend32 (readCore n s).1 n)) (readCore n s).2

/-- The loop of RDB64 (40_cursor_fixed.md R89) with `m` bits still to read into `x`: greedy chunks of at most 24
bits, concatenated most significant first. `fuel` bounds its iterations. -/
def readChunks : (fuel m : Nat) → Long → State → Long × State
  | 0, _, x, s => (x, s)
  | fuel + 1, m, x, s =>
    if m = 0 then (x, s)
    else readChunks fuel (m - min 24 m)
      ((x <<< (min 24 m)) ||| (readCore (min 24 m) s).1.setWidth 64) (readCore (min 24 m) s).2

/-- The whole read of RDB64: at most 3 chunks (40_cursor_fixed.md R89, 70_reset_and_hazards.md R183; log 15). -/
def readCore64 (n : Nat) (s : State) : Long × State := readChunks 3 n 0 s

/-- RDB64 (40_cursor_fixed.md R89). -/
def execRdb64 (n : Nat) (s : State) : Result :=
  match fieldError 64 n s with
  | some e => raise e s
  | none => respond (.value (readCore64 n s).1) (readCore64 n s).2

/-- RDB64S (40_cursor_fixed.md R90): "signed variant sign-extends over 64 bits". -/
def execRdb64s (n : Nat) (s : State) : Result :=
  match fieldError 64 n s with
  | some e => raise e s
  | none => respond (.value (signExtend64 (readCore64 n s).1 n)) (readCore64 n s).2

end Sys2Proof.Machine
end

