-- ==== Sys2Proof/Machine/Position.lean ====
section
/-! DEFINITION. Creation and positioning: INIT, SEEK, FLUSH (40_cursor_fixed.md R82 to R84). -/

namespace Sys2Proof.Machine

/-- INIT (40_cursor_fixed.md R82). It does not check `init`: a second INIT creates a new cursor. -/
def execInit (bitOffset : Int) (s : State) : Result :=
  if s.buf.len = 0 ∨ bitOffset < 0 then raise .invalidArgument s
  else if (s.bitLen : Int) < bitOffset then raise .invalidArgument s
  else respond .done ({ s with init := true }.setPos bitOffset.toNat).reload

/-- SEEK (40_cursor_fixed.md R83). The sum `pos + n` is computed without wrap-around. -/
def execSeek (n : Int) (s : State) : Result :=
  if s.init = false then raise .notInitialised s
  else if n ≤ 0 then raise .outOfRange s
  else if (s.bitLen : Int) < s.pos.toNat + n then raise .endOfStream s
  else respond .done (s.advance n.toNat)

/-- FLUSH (40_cursor_fixed.md R84): an aligned cursor is left as it is, without a reload. -/
def execFlush (s : State) : Result :=
  if s.init = false then raise .notInitialised s
  else if s.pos.toNat % 8 = 0 then respond .done s
  else respond .done (s.advance (8 - s.pos.toNat % 8))

end Sys2Proof.Machine
end

