-- ==== Sys2Proof/Machine/Status.lean ====
section
/-! DEFINITION. The status reads: GETPOS and GETLA (40_cursor_fixed.md R96, R97). -/

namespace Sys2Proof.Machine

/-- GETPOS (40_cursor_fixed.md R96): no state written. -/
def execGetpos (s : State) : Result :=
  if s.init = false then raise .notInitialised s
  else respond (.value s.pos) s

/-- GETLA (40_cursor_fixed.md R97): no state written, no reload; the draws of the last reload show. -/
def execGetla (s : State) : Result :=
  if s.init = false then raise .notInitialised s
  else respond (.value s.la) s

end Sys2Proof.Machine
end

