-- ==== Sys2Proof/Machine/Unary.lean ====
section
/-! DEFINITION. The unary reads: RDUN and RDUNS (41_cursor_varlen.md R111 to R114). -/

namespace Sys2Proof.Machine

/-- The checks of a unary read (41_cursor_varlen.md R111): NotInitialised, then EndOfStream when no stream bit from
`pos` to the buffer's end is set. -/
def unaryError (s : State) : Option ErrorKind :=
  if s.init = false then some .notInitialised
  else if s.buf.anySet (s.bitLen - s.pos.toNat) s.pos.toNat = false then some .endOfStream
  else none

/-- The loop of RDUN (41_cursor_varlen.md R111): "while it is exactly zero, seek 8 bits and add 8". `fuel` bounds its
iterations. -/
def skipZeroBytes : (fuel : Nat) → Word → State → Word × State
  | 0, count, s => (count, s)
  | fuel + 1, count, s =>
    if topByte s.la = 0 then skipZeroBytes fuel (count + 8) (s.advance 8) else (count, s)

/-- The end of RDUN, at a nonzero top byte (41_cursor_varlen.md R111): its leading zeros from the table, then
`(count mod 8) + 1` bits forward, "to consume the indicator bit itself". -/
def finishUnary (count : Word) (s : State) : Word × State :=
  let total := count + (tableAt s.lz8 (topByte s.la)).setWidth 32
  (total, s.advance (total.toNat % 8 + 1))

/-- The count of RDUN and the state after it (41_cursor_varlen.md R111): at most `L` whole zero bytes
(70_reset_and_hazards.md R183; log 15), then the last step. -/
def readUnary (s : State) : Word × State :=
  finishUnary (skipZeroBytes (s.buf.len + 1) 0 s).1 (skipZeroBytes (s.buf.len + 1) 0 s).2

/-- RDUN (41_cursor_varlen.md R111). -/
def execRdun (s : State) : Result :=
  match unaryError s with
  | some e => raise e s
  | none => respond (.value (readUnary s).1) (readUnary s).2

/-- RDUNS (41_cursor_varlen.md R113): the count of RDUN, mapped by zig-zag. -/
def execRduns (s : State) : Result :=
  match unaryError s with
  | some e => raise e s
  | none => respond (.value (zigzag (readUnary s).1)) (readUnary s).2

end Sys2Proof.Machine
end

