-- ==== Sys2Proof/Machine/Utf8.lean ====
section
/-! DEFINITION. The UTF-8-like reads: RDU8, RDU8S, RDU8L, RDU8LS (41_cursor_varlen.md R120 to R126). -/

namespace Sys2Proof.Machine

/-- How a decode ends (41_cursor_varlen.md R121). -/
inductive Utf8End (w : Nat) where
  /-- Every byte matched: the value. -/
  | value (v : BitVec w)
  /-- The leading byte or a continuation byte matched no pattern: not an error (60_exceptions.md R163). -/
  | failure
  /-- A byte the decode needs runs past the buffer. -/
  | endOfStream
  deriving DecidableEq, Repr

/-- `ReadByte()` (41_cursor_varlen.md R121): none when the byte has a bit at or beyond `8*L`. -/
def readByte (s : State) : Option (Byte × State) :=
  if s.bitLen < s.pos.toNat + 8 then none
  else some ((readCore 8 s).1.setWidth 8, (readCore 8 s).2)

/-- The `k` continuation bytes of a decode that has the value `v` so far (41_cursor_varlen.md R121). A byte that does
not match stays consumed. -/
def utf8Continue {w : Nat} : (k : Nat) → BitVec w → State → Utf8End w × State
  | 0, v, s => (.value v, s)
  | k + 1, v, s =>
    match readByte s with
    | none => (.endOfStream, s)
    | some (c, t) => if isContinuation c then utf8Continue k (appendContinuation v c) t else (.failure, t)

/-- `Utf8Decode(W, KMAX)` (41_cursor_varlen.md R121) without its check and its response: how it ends and the state it
has reached. -/
def utf8Decode (w kMax : Nat) (s : State) : Utf8End w × State :=
  match readByte s with
  | none => (.endOfStream, s)
  | some (x, t) =>
    match leadByte x with
    | none => (.failure, t)
    | some (k, v) => if kMax < k then (.failure, t) else utf8Continue k (v.setWidth w) t

/-- The roll-back of a decode that ran out of buffer: `(pos, la) <- (pos0, la0)` (41_cursor_varlen.md R121). The
reloads it made stay made on the memory port (20_memory.md R50; log 10). -/
def State.rollBackTo (t s : State) : State := { t with pos := s.pos, la := s.la }

/-- The four UTF-8-like reads (41_cursor_varlen.md R121 to R125), with the cast each applies to its value or its
sentinel. -/
def utf8Respond (w kMax : Nat) (cast : BitVec w → BitVec w) (s : State) : Result :=
  if s.init = false then raise .notInitialised s
  else match utf8Decode w kMax s with
    | (.value v, t) => respond (.value (cast v)) t
    | (.failure, t) => respond (.failed (cast (BitVec.allOnes w))) t
    | (.endOfStream, t) => raise .endOfStream (t.rollBackTo s)

/-- RDU8 (41_cursor_varlen.md R122): 32 bits, at most 5 continuation bytes. -/
def execRdu8 (s : State) : Result := utf8Respond 32 5 id s

/-- RDU8S (41_cursor_varlen.md R123): the result or the sentinel of RDU8 as a signed 32-bit value. -/
def execRdu8s (s : State) : Result := utf8Respond 32 5 signedPattern s

/-- RDU8L (41_cursor_varlen.md R124): 64 bits, at most 6 continuation bytes. -/
def execRdu8l (s : State) : Result := utf8Respond 64 6 id s

/-- RDU8LS (41_cursor_varlen.md R125): the result or the sentinel of RDU8L as a signed 64-bit value. -/
def execRdu8ls (s : State) : Result := utf8Respond 64 6 signedPattern s

end Sys2Proof.Machine
end

