-- ==== Sys2Proof/Machine/Dispatch.lean ====
section
/-! DEFINITION. The meaning of each instruction, one arm per constructor of `Instr`. -/

namespace Sys2Proof.Machine

def exec (i : Instr) (s : State) : Host.Outcome State Fault Refusal :=
  match i with
  | .init bitOffset => Sys2Proof.Machine.execInit bitOffset s
  | .seek n => Sys2Proof.Machine.execSeek n s
  | .flush => Sys2Proof.Machine.execFlush s
  | .rdbit => Sys2Proof.Machine.execRdbit s
  | .rdb n => Sys2Proof.Machine.execRdb n s
  | .rdbs n => Sys2Proof.Machine.execRdbs n s
  | .rdb64 n => Sys2Proof.Machine.execRdb64 n s
  | .rdb64s n => Sys2Proof.Machine.execRdb64s n s
  | .rdun => Sys2Proof.Machine.execRdun s
  | .rduns => Sys2Proof.Machine.execRduns s
  | .rdu8 => Sys2Proof.Machine.execRdu8 s
  | .rdu8s => Sys2Proof.Machine.execRdu8s s
  | .rdu8l => Sys2Proof.Machine.execRdu8l s
  | .rdu8ls => Sys2Proof.Machine.execRdu8ls s
  | .getpos => Sys2Proof.Machine.execGetpos s
  | .getla => Sys2Proof.Machine.execGetla s
  | .crc8 offset count => Sys2Proof.Machine.execCrc8 offset count s
  | .crc16 offset count => Sys2Proof.Machine.execCrc16 offset count s

end Sys2Proof.Machine
end

