-- ==== Sys2Proof/Machine/Step.lean ====
section
/-! DEFINITION. One step: the next command of the list, decoded and run whole (10_state.md R27, 30_encoding.md
R67). -/

namespace Sys2Proof.Machine

/-- One command (30_encoding.md R67). An illegal command word raises IllegalCommand before anything else is looked
at (30_encoding.md R65, 60_exceptions.md R162). With no command left the run has ended (70_reset_and_hazards.md
R184). -/
def step (s : State) : Host.Outcome State Fault Refusal :=
  match fetch s with
  | none => .fault .runEnded
  | some c =>
    match decode c with
    | .ok i => exec i s
    | .error _ => raise .illegalCommand s

/-- The state with that instruction as the next command of the list (log 7, log 14). -/
def State.withFetchWord (s : State) (nbits w : Nat) : State := s.withCommand (commandOfTableWord nbits w)

end Sys2Proof.Machine
end

