-- ==== Sys2Proof/Machine/Assembler.lean ====
section
/-! DEFINITION. The assembler's source form: one command per line, a mnemonic and its operands (30_encoding.md R68).
It lays commands out; the machine never reads source text. -/

namespace Sys2Proof

/-- `N` from a width operand: "The assembler refuses a width above 255" (30_encoding.md R68). -/
def widthOperand (v : Int) : Option Byte := if 0 ≤ v ∧ v ≤ 255 then some (BitVec.ofInt 8 v) else none

/-- `ARG0` of INIT and SEEK: decimal or hex, may be negative, and must fit 32 bits, as a signed value or as a
pattern (30_encoding.md R68; log 17). -/
def signedOperand (v : Int) : Option Word := if -0x80000000 ≤ v ∧ v < 0x100000000 then some (BitVec.ofInt 32 v) else none

/-- `ARG0` and `ARG1` of the CRC commands: unsigned, and must fit 32 bits (30_encoding.md R62, R68). -/
def unsignedOperand (v : Int) : Option Word := if 0 ≤ v ∧ v < 0x100000000 then some (BitVec.ofInt 32 v) else none

/-- A command of one signed operand. -/
def asmSigned (op : Byte) : List Int → Option Command
  | [v] => (signedOperand v).map fun a => ⟨commandWord op 0, a, 0⟩
  | _ => none

/-- A command of one width operand; "ignored" operand words are written as 0 (log 11). -/
def asmWidth (op : Byte) : List Int → Option Command
  | [v] => (widthOperand v).map fun n => ⟨commandWord op n, 0, 0⟩
  | _ => none

/-- A command without operands. -/
def asmPlain (op : Byte) : List Int → Option Command
  | [] => some ⟨commandWord op 0, 0, 0⟩
  | _ => none

/-- A command of an offset and a count. -/
def asmRange (op : Byte) : List Int → Option Command
  | [off, cnt] =>
    match unsignedOperand off, unsignedOperand cnt with
    | some a, some b => some ⟨commandWord op 0, a, b⟩
    | _, _ => none
  | _ => none

/-- One command from its mnemonic and its operands (30_encoding.md R68). There are no pseudo-instructions. -/
def assemble (mnemonic : String) (operands : List Int) : Option Command :=
  if mnemonic = "INIT" then asmSigned 0x01 operands
  else if mnemonic = "SEEK" then asmSigned 0x02 operands
  else if mnemonic = "FLUSH" then asmPlain 0x03 operands
  else if mnemonic = "RDBIT" then asmPlain 0x04 operands
  else if mnemonic = "RDB" then asmWidth 0x05 operands
  else if mnemonic = "RDBS" then asmWidth 0x06 operands
  else if mnemonic = "RDB64" then asmWidth 0x07 operands
  else if mnemonic = "RDB64S" then asmWidth 0x08 operands
  else if mnemonic = "RDUN" then asmPlain 0x09 operands
  else if mnemonic = "RDUNS" then asmPlain 0x0A operands
  else if mnemonic = "RDU8" then asmPlain 0x0B operands
  else if mnemonic = "RDU8S" then asmPlain 0x0C operands
  else if mnemonic = "RDU8L" then asmPlain 0x0D operands
  else if mnemonic = "RDU8LS" then asmPlain 0x0E operands
  else if mnemonic = "GETPOS" then asmPlain 0x0F operands
  else if mnemonic = "GETLA" then asmPlain 0x10 operands
  else if mnemonic = "CRC8" then asmRange 0x20 operands
  else if mnemonic = "CRC16" then asmRange 0x21 operands
  else none

/-- A digit in a base of at most 16. -/
def digitOf (base : Nat) (c : Char) : Option Nat :=
  let d := if '0' ≤ c ∧ c ≤ '9' then c.toNat - 48
    else if 'a' ≤ c ∧ c ≤ 'f' then c.toNat - 87
    else if 'A' ≤ c ∧ c ≤ 'F' then c.toNat - 55
    else 16
  if d < base then some d else none

/-- The value of a digit string read on from `v`. -/
def digitsFrom (base : Nat) : Nat → List Char → Option Nat
  | v, [] => some v
  | v, c :: cs =>
    match digitOf base c with
    | some d => digitsFrom base (v * base + d) cs
    | none => none

/-- An unsigned number, decimal or `0x` hex (30_encoding.md R68; log 17). -/
def unsignedNumber : List Char → Option Nat
  | '0' :: 'x' :: c :: cs => digitsFrom 16 0 (c :: cs)
  | c :: cs => digitsFrom 10 0 (c :: cs)
  | [] => none

/-- A number with an optional minus sign. -/
def numberOf : List Char → Option Int
  | '-' :: cs => (unsignedNumber cs).map fun n => -(n : Int)
  | cs => (unsignedNumber cs).map fun n => (n : Int)

/-- The tokens of a line up to its comment: blanks and commas separate them, `;` starts the comment (log 17). -/
def tokensFrom : List Char → List Char → List (List Char)
  | [], acc => if acc.isEmpty then [] else [acc.reverse]
  | c :: cs, acc =>
    if c = ';' then (if acc.isEmpty then [] else [acc.reverse])
    else if c = ' ' ∨ c = '\t' ∨ c = ',' then
      (if acc.isEmpty then tokensFrom cs [] else acc.reverse :: tokensFrom cs [])
    else tokensFrom cs (c :: acc)

/-- One source line as a command (30_encoding.md R68). -/
def assembleLine (line : String) : Option Command :=
  match tokensFrom line.toList [] with
  | [] => none
  | mnemonic :: operands => (operands.mapM numberOf).bind (assemble (String.ofList mnemonic))

end Sys2Proof
end

