-- ==== Sys2Proof/Safety.lean ====
section
/-! DEFINITION. What a safe run is, the invariants of the machine, and the words the statements are written in: where
a command leaves the cursor, the values it reads, and the checksum as a bitwise division. -/

namespace Sys2Proof.Machine

/-- A clean run: no response is an error response. The spec asks that a claim take this as a premise where it speaks
of the software the block stands for (60_exceptions.md R161; log 1). -/
def State.clean (s : State) : Bool := s.responses.all fun r => r.err == 0

/-- A response that 30_encoding.md R66 allows: a success, a UTF-8 pattern failure with a sentinel, or an error with
a code from 1 to 5, `VALID = 0` and `DATA = 0`. -/
def Response.legal (r : Response) : Bool :=
  if r.err = 0 then r.valid || r.data == 0xFFFFFFFF || r.data == BitVec.allOnes 64
  else decide (r.err.toNat ≤ 5) && !r.valid && r.data == 0

/-- The block's own invariant (10_state.md R22, R23, R28, R29): the buffer is in its canonical form and in range,
the tables hold their constant contents, and a cursor's position lies in the buffer or at its end, with the
lookahead as one of the reloads made so far left it. -/
structure State.Sound (s : State) : Prop where
  /-- The buffer's form and the bound on `L`. -/
  bufWf : s.buf.wf = true
  /-- `T8` is the table of 42_crc.md R142. -/
  t8 : s.t8 = crc8Table
  /-- `T16` is the table of 42_crc.md R143. -/
  t16 : s.t16 = crc16Table
  /-- `LZ8` is the table of 41_cursor_varlen.md R110. -/
  lz8 : s.lz8 = leadingZeroTable
  /-- "After every command with `init = 1`, `0 <= pos <= 8*L`". -/
  posLe : s.init = true → s.pos.toNat ≤ s.bitLen
  /-- "`la` holds the value `Reload(pos)` that the last reload computed, with the `PAD` draws that reload took". -/
  lookahead : s.init = true → ∃ d, d < s.reloads ∧ s.la = s.buf.reload s.draws d s.pos.toNat

/-- The run's bookkeeping (10_state.md R27, 70_reset_and_hazards.md R184): one response per command run so far, every
response one that the interface allows, and the index within the list. -/
structure State.InStep (s : State) : Prop where
  /-- One response per command. -/
  count : s.responses.length = s.k
  /-- The index is within the list or at its end. -/
  bound : s.k ≤ s.program.length
  /-- Every response is legal. -/
  legal : ∀ r ∈ s.responses, r.legal = true

/-- The machine's invariant. -/
structure State.Inv (s : State) : Prop where
  /-- The block's part. -/
  sound : s.Sound
  /-- The run's part. -/
  inStep : s.InStep

/-- The cursor at bit position `q` after `r` further reloads, the last of them at `q` (20_memory.md R43, R50). Nothing
else differs. -/
def State.movedTo (s : State) (q r : Nat) : State :=
  { s with pos := BitVec.ofNat 32 q, la := s.buf.reload s.draws (s.reloads + r - 1) q, reloads := s.reloads + r }

/-- The command has succeeded with this `DATA` (30_encoding.md R66). -/
def State.returned (s : State) (data : Long) : State := s.answer ⟨0, true, data⟩

/-- The command has raised the error of this code (60_exceptions.md R161). -/
def State.erred (s : State) (code : BitVec 3) : State := s.answer ⟨code, false, 0⟩

/-- The command has met a UTF-8 pattern failure, with the sentinel of width `w` (30_encoding.md R66). -/
def State.mismatched (s : State) (w : Nat) : State := s.answer ⟨0, false, BitVec.ofNat 64 (2 ^ w - 1)⟩

/-- The cursor is where it was, and `r` reloads have been made in vain (20_memory.md R50). -/
def State.withReloads (s : State) (r : Nat) : State := { s with reloads := s.reloads + r }

/-- The field of `n` stream bits from `q` on, read as a signed `n`-bit value (00_scope.md R7, 40_cursor_fixed.md R87,
R90). -/
def Memory.signedField (m : Memory) (q n : Nat) : Int :=
  if m.streamBit q then (m.field q n : Int) - 2 ^ n else (m.field q n : Int)

/-- The 8 stream bits from `q` on, at any bit position. -/
def Memory.octet (m : Memory) (q : Nat) : Byte := BitVec.ofNat 8 (m.field q 8)

/-- Bit `t` is the first set stream bit from `p` on, and it lies in the buffer (41_cursor_varlen.md R112). -/
def Memory.firstSet (m : Memory) (p t : Nat) : Prop :=
  p ≤ t ∧ t < 8 * m.len ∧ m.streamBit t = true ∧ ∀ q, p ≤ q → q < t → m.streamBit q = false

/-- The value of a UTF-8-like integer at `q` whose leading byte carries `v` and `k` continuation bytes: each of those
appends its low 6 bits (41_cursor_varlen.md R120, R121). -/
def Memory.utf8Value (m : Memory) (q v k : Nat) : Nat :=
  v * 64 ^ k + ((List.range k).map fun j => (m.octet (q + 8 * (j + 1))).toNat % 64 * 64 ^ (k - 1 - j)).sum

/-- The valid leading bytes: lowest, highest, continuation bytes; the value bits are what is above the lowest
(41_cursor_varlen.md R120). -/
def utf8Rows : List (Nat × Nat × Nat) :=
  [(0x00, 0x7F, 0), (0xC0, 0xDF, 1), (0xE0, 0xEF, 2), (0xF0, 0xF7, 3), (0xF8, 0xFB, 4), (0xFC, 0xFD, 5),
   (0xFE, 0xFE, 6)]

/-- The four UTF-8-like reads with their widths and their caps on continuation bytes (41_cursor_varlen.md R122 to
R125). -/
def utf8Forms : List (Instr × Nat × Nat) := [(.rdu8, 32, 5), (.rdu8s, 32, 5), (.rdu8l, 64, 6), (.rdu8ls, 64, 6)]

/-- The 8 bits from `q` on have the pattern `10xxxxxx` (41_cursor_varlen.md R120). -/
def Memory.continuesAt (m : Memory) (q : Nat) : Prop := 0x80 ≤ (m.octet q).toNat ∧ (m.octet q).toNat ≤ 0xBF

/-- The values of consecutive fields of the given widths from `q` on (40_cursor_fixed.md R92). -/
def Memory.fieldsFrom (m : Memory) : Nat → List Nat → List Nat
  | _, [] => []
  | q, w :: ws => m.field q w :: m.fieldsFrom (q + w) ws

/-- Instructions run one after the other (20_memory.md R53). -/
def execAll : List Instr → State → Result
  | [], s => .next s
  | i :: is, s =>
    match exec i s with
    | .next t => execAll is t
    | .fault r => .fault r
    | .refused r => .refused r

/-- The most reloads a command makes over a buffer of `len` bytes (20_memory.md R50, 70_reset_and_hazards.md
R183). -/
def maxReloads (len : Nat) : Instr → Nat
  | .init _ | .seek _ | .flush | .rdbit => 1
  | .rdb n | .rdbs n => if n ≤ 24 then 1 else 2
  | .rdb64 _ | .rdb64s _ => 3
  | .rdun | .rduns => len + 1
  | .rdu8 | .rdu8s | .rdu8l | .rdu8ls => 7
  | .getpos | .getla | .crc8 _ _ | .crc16 _ _ => 0

/-- The stream bits of the bytes `off .. off+cnt-1`, the first byte's most significant bit first (42_crc.md R147). -/
def Memory.rangeBits (m : Memory) (off cnt : Nat) : List Bool :=
  (List.range (8 * cnt)).map fun j => m.streamBit (8 * off + j)

/-- One step of the bitwise MSB-first division over GF(2) (42_crc.md R147): bring the next bit of the dividend down
into the remainder `r`, and subtract the divisor `poly` of degree `w` if the remainder has reached that degree. -/
def gf2DivStep (w poly r : Nat) (b : Bool) : Nat :=
  if (2 * r + b.toNat).testBit w then (2 * r + b.toNat) ^^^ poly else 2 * r + b.toNat

/-- The remainder of the division of the polynomial with these coefficients, highest first (42_crc.md R147). -/
def gf2Remainder (w poly : Nat) (bits : List Bool) : Nat := bits.foldl (gf2DivStep w poly) 0

/-- `M(x) * x^w mod P(x)` for the message in the bytes `off .. off+cnt-1` (42_crc.md R147). -/
def Memory.polynomialCrc (m : Memory) (w poly off cnt : Nat) : Nat :=
  gf2Remainder w poly (m.rangeBits off cnt ++ List.replicate w false)

end Sys2Proof.Machine
end

