-- ==== Sys2Proof/Certificates/Slice0/Obligations.lean ====
section
/-! DEFINITION. The statements for the provers, each a rule of the spec or a property derived from its rules. -/

open Sys2Proof Sys2Proof.Machine

/-! ## Commands and their encoding -/

/-- 10_state.md R27, 30_encoding.md R67: a step is the meaning of the next command of the list, decoded. -/
def Obligations.StepRunsTheDecodedCommand : Prop :=
  ∀ (s : State) (c : Command) (i : Instr),
    s.program[s.k]? = some c → decode c = .ok i → step s = exec i s

/-- 30_encoding.md R65, 60_exceptions.md R162: an illegal word raises IllegalCommand, whatever the state. -/
def Obligations.IllegalWordRaisesIllegalCommand : Prop :=
  ∀ (s : State) (c : Command), s.program[s.k]? = some c →
    (let op := c.cw.toNat % 2 ^ 8
     (op = 0x00 ∨ (0x11 ≤ op ∧ op ≤ 0x1F) ∨ 0x22 ≤ op) ∨ c.cw.toNat / 2 ^ 16 ≠ 0 ∨
      (c.cw.toNat / 2 ^ 8 % 2 ^ 8 ≠ 0 ∧ op ∉ [0x05, 0x06, 0x07, 0x08])) →
    step s = .next (s.erred 5)

/-- 30_encoding.md R64, spec/opcode_table.json: a word decodes exactly when it selects a row of the opcode table, and
then to the instruction of that row. -/
def Obligations.WordDecodesExactlyByItsTableRow : Prop :=
  ∀ c : Command,
    (∀ i, decode c = .ok i → ∃ r ∈ opcodeTable, r.selects c.cw = true ∧ r.mnemonic = i.mnemonic) ∧
    (∀ r ∈ opcodeTable, r.selects c.cw = true → ∃ i, decode c = .ok i ∧ i.mnemonic = r.mnemonic)

/-- 30_encoding.md R61, R62, R64: no bit of an encoding is dropped. -/
def Obligations.DecodeOfEncodeIsTheInstruction : Prop :=
  ∀ i : Instr, i.wellFormed = true → decode (encode i) = .ok i

/-- 30_encoding.md R61, R62, R64: what the decoder reads is well formed and encodes back to the same word and to the
operand words the command uses. -/
def Obligations.EncodeOfDecodeIsTheCommand : Prop :=
  ∀ (c : Command) (i : Instr), decode c = .ok i →
    i.wellFormed = true ∧ (encode i).cw = c.cw ∧
    (i.usesArg0 = true → (encode i).arg0 = c.arg0) ∧ (i.usesArg1 = true → (encode i).arg1 = c.arg1)

/-- 30_encoding.md R61, R62: an operand word that a command does not use is ignored. -/
def Obligations.UnusedOperandWordsAreIgnored : Prop :=
  ∀ (c c' : Command) (i : Instr), decode c = .ok i → c'.cw = c.cw →
    (i.usesArg0 = true → c'.arg0 = c.arg0) → (i.usesArg1 = true → c'.arg1 = c.arg1) → decode c' = .ok i

/-- 30_encoding.md R69: the encoding examples. That the encoder writes 0 into an operand word the command ignores is the
model's choice (log 11); R69 gives only the command word and the operand words a command uses. -/
def Obligations.EncodingExamples : Prop :=
  encode (.rdb 5) = ⟨0x00000505, 0, 0⟩ ∧ decode ⟨0x00000505, 0, 0⟩ = .ok (.rdb 5) ∧
  encode (.rdb64s 64) = ⟨0x00004008, 0, 0⟩ ∧ decode ⟨0x00004008, 0, 0⟩ = .ok (.rdb64s 64) ∧
  encode (.seek (-3)) = ⟨0x00000002, 0xFFFFFFFD, 0⟩ ∧ decode ⟨0x00000002, 0xFFFFFFFD, 0⟩ = .ok (.seek (-3)) ∧
  encode (.crc16 2 7) = ⟨0x00000021, 2, 7⟩ ∧ decode ⟨0x00000021, 2, 7⟩ = .ok (.crc16 2 7) ∧
  (∀ a b, ∃ e, decode ⟨0x00010005, a, b⟩ = .error e) ∧ (∀ a b, ∃ e, decode ⟨0x00000103, a, b⟩ = .error e)

/-- 30_encoding.md R68: the assembler lays out a well-formed instruction as the encoder does. -/
def Obligations.AssemblerAgreesWithTheEncoder : Prop :=
  ∀ i : Instr, i.wellFormed = true → assemble i.mnemonic i.operands = some (encode i)

/-- 30_encoding.md R68: a width above 255 and an argument that does not fit 32 bits are refused. -/
def Obligations.AssemblerRefusesWhatDoesNotFit : Prop :=
  (∀ n : Int, 255 < n → ∀ m ∈ ["RDB", "RDBS", "RDB64", "RDB64S"], assemble m [n] = none) ∧
  (∀ v : Int, v < -0x80000000 ∨ 0x100000000 ≤ v → assemble "INIT" [v] = none ∧ assemble "SEEK" [v] = none) ∧
  (∀ off cnt : Int, 0x100000000 ≤ off ∨ 0x100000000 ≤ cnt →
    assemble "CRC8" [off, cnt] = none ∧ assemble "CRC16" [off, cnt] = none)

/-- The model's own (log 7, log 14): a word placed as the next command is the one the next step runs. -/
def Obligations.PlacedWordIsTheNextStep : Prop :=
  ∀ (s : State) (nbits w : Nat),
    (∀ i, decodeTableWord nbits w = some i →
      step (s.withFetchWord nbits w) = exec i (s.withFetchWord nbits w)) ∧
    (decodeTableWord nbits w = none →
      step (s.withFetchWord nbits w) = .next ((s.withFetchWord nbits w).erred 5))

/-- 60_exceptions.md R162: the four examples of the priority of errors. -/
def Obligations.ErrorPriorityExamples : Prop :=
  (∀ s : State, s.init = true → s.pos.toNat = 8 * s.buf.len → exec (.rdb 0) s = .next (s.erred 2)) ∧
  (∀ s : State, s.init = false → exec (.rdb 0) s = .next (s.erred 4)) ∧
  (∀ a b, decode ⟨0x00000105, a, b⟩ = .ok (.rdb 1)) ∧
  (∀ (s : State) (a b : Word), s.program[s.k]? = some ⟨0x00000109, a, b⟩ → step s = .next (s.erred 5))

/-! ## Reset, runs and the invariant -/

/-- 10_state.md R29, 42_crc.md R142, R143, 41_cursor_varlen.md R110: what reset leaves, by the spot values the spec
gives for the tables. -/
def Obligations.ResetLeavesNoCursorAndTheTables : Prop :=
  State.reset.init = false ∧
  tableAt State.reset.t8 0x01 = 0x07 ∧ tableAt State.reset.t8 0x80 = 0x89 ∧ tableAt State.reset.t8 0xFF = 0xF3 ∧
  tableAt State.reset.t16 0x01 = 0x8005 ∧ tableAt State.reset.t16 0x80 = 0x8303 ∧
  tableAt State.reset.t16 0xFF = 0x0202 ∧
  tableAt State.reset.lz8 0x00 = 8 ∧ tableAt State.reset.lz8 0xFF = 0

/-- 41_cursor_varlen.md R110: the leading-zero table. -/
def Obligations.LeadingZeroTableCountsLeadingZeros : Prop :=
  ∀ v : Byte, (tableAt State.reset.lz8 v).toNat = if v = 0 then 8 else 7 - Nat.log2 v.toNat

/-- 42_crc.md R140, R141: an entry of a checksum table is the remainder of `i(x) * x^w` by the polynomial. -/
def Obligations.ChecksumTablesHoldPolynomialRemainders : Prop :=
  ∀ i : Byte,
    (tableAt State.reset.t8 i).toNat =
      gf2Remainder 8 0x107 ((List.range 8).map (fun j => i.getLsbD (7 - j)) ++ List.replicate 8 false) ∧
    (tableAt State.reset.t16 i).toNat =
      gf2Remainder 16 0x18005 ((List.range 8).map (fun j => i.getLsbD (7 - j)) ++ List.replicate 16 false)

/-- The invariant holds after every reset (10_state.md R29), whatever `pos`, `la`, the buffer, the command list and
the draws are; State.reset is one such state. -/
def Obligations.ResetMeetsTheInvariant : Prop :=
  State.reset.Inv ∧
  ∀ (p l : Word) (m : Memory) (c : List Command) (ds : List Byte) (n x : Nat),
    m.wf = true → (State.afterReset p l m c ds n x).Inv

/-- 10_state.md R22, R23, R28, R29: every step keeps the invariant. -/
def Obligations.EveryStepKeepsTheInvariant : Prop :=
  ∀ s t : State, s.Inv → step s = .next t → t.Inv

/-- 30_encoding.md R67, 70_reset_and_hazards.md R183, R184: every run of every command list over every buffer gives
one response per command, and then the run has ended (the stop itself is the model's choice, log 2). -/
def Obligations.EveryRunEndsWithOneResponsePerCommand : Prop :=
  ∀ (m : Memory) (c : List Command) (ds : List Byte),
    ∃ t : State, Host.Core.run core c.length (State.launch m c ds) = .next t ∧
      t.responses.length = c.length ∧ t.k = c.length ∧ step t = .fault .runEnded

/-- 70_reset_and_hazards.md R184 (the stop is the model's choice, log 2): a step stops exactly when no command is
left. -/
def Obligations.OnlyAnEndedRunStops : Prop :=
  ∀ s : State, (step s = .fault .runEnded ↔ s.program.length ≤ s.k) ∧
    (s.k < s.program.length → ∃ t, step s = .next t ∧ t.k = s.k + 1 ∧ t.program = s.program)

/-- 70_reset_and_hazards.md R180, R182 (H-e): RESET leaves no cursor and the constant tables, whatever `pos` and `la`
become, and after it every cursor command but INIT raises NotInitialised. -/
def Obligations.ResetDiscardsTheCursor : Prop :=
  ∀ (s : State) (p l : Word) (c : List Command),
    (s.assertReset p l c).init = false ∧ (s.assertReset p l c).responses = [] ∧
    (s.assertReset p l c).t8 = State.reset.t8 ∧ (s.assertReset p l c).t16 = State.reset.t16 ∧
    (s.assertReset p l c).lz8 = State.reset.lz8 ∧ (s.assertReset p l c).buf = s.buf ∧
    ∀ i : Instr, i.isCursor = true → i.isInit = false →
      exec i (s.assertReset p l c) = .next ((s.assertReset p l c).erred 4)

/-- 10_state.md R29: "no command can observe them until INIT writes both". Two states without a cursor that differ in
`pos` and `la` alone answer alike, and a successful INIT makes them equal. -/
def Obligations.ResetValuesCannotBeObserved : Prop :=
  ∀ (i : Instr) (s t : State) (p l : Word), s.init = false → exec i s = .next t →
    ∃ t', exec i { s with pos := p, la := l } = .next t' ∧
      (t.init = true → t' = t) ∧ (t.init = false → t' = { t with pos := p, la := l })

/-! ## What every command does and leaves -/

/-- 30_encoding.md R66, R67, 10_state.md R27, 20_memory.md R47: every command answers with one legal response; the
buffer, the tables, the command list and the earlier responses are as before. -/
def Obligations.EveryCommandAnswersOnceAndWritesNoMemory : Prop :=
  ∀ (i : Instr) (s : State), ∃ (t : State) (r : Response),
    exec i s = .next t ∧ t.responses = s.responses ++ [r] ∧ r.legal = true ∧ t.k = s.k + 1 ∧
    (∀ a, t.buf.byteAt a = s.buf.byteAt a) ∧ t.buf.len = s.buf.len ∧
    t.t8 = s.t8 ∧ t.t16 = s.t16 ∧ t.lz8 = s.lz8 ∧ t.program = s.program ∧ t.draws = s.draws

/-- 60_exceptions.md R161: an error response has `VALID = 0` and `DATA = 0`, the command writes none of `init`, `pos`
and `la` and no memory, and the next command is the next of the list. -/
def Obligations.ErrorsWriteNoState : Prop :=
  ∀ (i : Instr) (s t : State) (r : Response), exec i s = .next t → t.responses = s.responses ++ [r] → r.err ≠ 0 →
    r.valid = false ∧ r.data = 0 ∧ t.init = s.init ∧ t.pos = s.pos ∧ t.la = s.la ∧ t.buf = s.buf ∧
    t.k = s.k + 1 ∧ t.program = s.program

/-- 60_exceptions.md R160, R163, 30_encoding.md R66: the codes 6 and 7 are never produced, and `VALID = 0` with
`ERR = 0` happens only on a UTF-8-like read, with its sentinel. -/
def Obligations.ResponsesStayWithinTheInterface : Prop :=
  ∀ (i : Instr) (s t : State) (r : Response), exec i s = .next t → t.responses = s.responses ++ [r] →
    r.err.toNat ≤ 5 ∧
    (r.err = 0 → r.valid = false →
      ∃ w k, (i, w, k) ∈ utf8Forms ∧ r.data = BitVec.ofNat 64 (2 ^ w - 1))

/-- 10_state.md R21: a successful INIT sets `init`, a failed one leaves it; no other command changes it; without a
cursor every cursor command but INIT raises NotInitialised; the CRC commands do not read it. -/
def Obligations.InitBitIsSetOnlyByInit : Prop :=
  (∀ (bo : Int) (s t : State) (r : Response), exec (.init bo) s = .next t → t.responses = s.responses ++ [r] →
    t.init = if r.err = 0 then true else s.init) ∧
  (∀ (i : Instr) (s t : State), i.isInit = false → exec i s = .next t → t.init = s.init) ∧
  (∀ (i : Instr) (s : State), i.isCursor = true → i.isInit = false → s.init = false →
    exec i s = .next (s.erred 4)) ∧
  (∀ (i : Instr) (s t : State) (b : Bool), i.isCursor = false → exec i s = .next t →
    exec i { s with init := b } = .next { t with init := b })

/-- 10_state.md R22: with a cursor, `pos` is within `0 .. 8*L` after every command; only INIT can decrease it; every
successful SEEK and read increases it strictly; an error does not write it. -/
def Obligations.PositionIsMonotoneAndInRange : Prop :=
  ∀ (i : Instr) (s t : State) (r : Response), s.Sound → exec i s = .next t → t.responses = s.responses ++ [r] →
    (t.init = true → t.pos.toNat ≤ 8 * t.buf.len) ∧
    (i.isInit = false → s.pos.toNat ≤ t.pos.toNat) ∧
    (i.consumes = true → r.err = 0 → s.pos.toNat < t.pos.toNat) ∧
    (r.err ≠ 0 → t.pos = s.pos)

/-- 10_state.md R30: GETPOS, GETLA, CRC8 and CRC16 leave the cursor and its port alone; only the CRC commands read
bytes for the CRC unit. -/
def Obligations.StatusAndChecksumLeaveTheCursor : Prop :=
  ∀ (i : Instr) (s t : State), exec i s = .next t →
    ((i = .getpos ∨ i = .getla ∨ i.isCursor = false) →
      t.init = s.init ∧ t.pos = s.pos ∧ t.la = s.la ∧ t.reloads = s.reloads) ∧
    (i.isCursor = true → t.crcReads = s.crcReads)

/-- 20_memory.md R50, 70_reset_and_hazards.md R183: the bounds on memory-port reads. -/
def Obligations.PortReadsAreBounded : Prop :=
  ∀ (i : Instr) (s t : State), s.Sound → exec i s = .next t →
    s.reloads ≤ t.reloads ∧ t.reloads ≤ s.reloads + maxReloads s.buf.len i ∧
    s.crcReads ≤ t.crcReads ∧ t.crcReads ≤ s.crcReads + s.buf.len

/-- 20_memory.md R58: the CRC unit and the cursor are independent: a CRC command and a cursor command give the same
responses and the same state in either order. -/
def Obligations.ChecksumAndCursorCommandsCommute : Prop :=
  ∀ (i j : Instr) (s : State), i.isCursor = false → j.isCursor = true →
    ∃ (t u : State) (ri rj : Response), execAll [i, j] s = .next t ∧ execAll [j, i] s = .next u ∧
      t.responses = s.responses ++ [ri, rj] ∧ u.responses = s.responses ++ [rj, ri] ∧
      { t with responses := [] } = { u with responses := [] }

/-- 20_memory.md R41, R46: draws never reach a result. Two cursors over the same buffer at the same position, whatever
draws their lookaheads hold and whatever draws are still to come, answer every command but GETLA alike and stay at the
same position. -/
def Obligations.DrawsNeverReachAnAnswer : Prop :=
  ∀ (i : Instr) (s s' t t' : State) (r r' : Response), s.Sound → s'.Sound → i ≠ .getla →
    s.buf = s'.buf → s.init = s'.init → (s.init = true → s.pos = s'.pos) →
    exec i s = .next t → exec i s' = .next t' →
    t.responses = s.responses ++ [r] → t'.responses = s'.responses ++ [r'] →
    r = r' ∧ t.init = t'.init ∧ (t.init = true → t.pos = t'.pos)

/-! ## The lookahead -/

/-- 10_state.md R23 (corrected by 90_conflicts.md C1): after every command, `la` is left-justified, its bits are
stream bits inside the buffer and draws of one reload past it, and its low `pos mod 8` bits are zero. -/
def Obligations.LookaheadHoldsTheNextStreamBits : Prop :=
  ∀ (i : Instr) (s t : State), s.Sound → exec i s = .next t → t.init = true → ∃ d, d < t.reloads ∧
    (∀ j, j ≤ 31 - t.pos.toNat % 8 →
      (t.pos.toNat + j < 8 * t.buf.len → t.la.getLsbD (31 - j) = t.buf.streamBit (t.pos.toNat + j)) ∧
      (8 * t.buf.len ≤ t.pos.toNat + j →
        t.la.getLsbD (31 - j) =
          (padByte t.draws (4 * d + (t.pos.toNat % 8 + j) / 8)).getLsbD (7 - (t.pos.toNat + j) % 8))) ∧
    (∀ j, j < t.pos.toNat % 8 → t.la.getLsbD j = false)

/-! ## Creation, positioning and status -/

/-- 40_cursor_fixed.md R82: INIT, its encoding included. -/
def Obligations.InitCreatesTheCursor : Prop :=
  ∀ (bo : Int) (s : State),
    (∀ a b : Word, decode ⟨0x00000001, a, b⟩ = .ok (.init a.toInt)) ∧
    ((s.buf.len = 0 ∨ bo < 0 ∨ (8 * s.buf.len : Int) < bo) → exec (.init bo) s = .next (s.erred 1)) ∧
    (s.buf.wf = true → s.buf.len ≠ 0 → 0 ≤ bo → bo ≤ (8 * s.buf.len : Int) →
      exec (.init bo) s = .next ((({ s with init := true } : State).movedTo bo.toNat 1).returned 0))

/-- 40_cursor_fixed.md R83: SEEK, its encoding included. -/
def Obligations.SeekAdvances : Prop :=
  ∀ (n : Int) (s : State),
    (∀ a b : Word, decode ⟨0x00000002, a, b⟩ = .ok (.seek a.toInt)) ∧
    (s.init = false → exec (.seek n) s = .next (s.erred 4)) ∧
    (s.init = true → n ≤ 0 → exec (.seek n) s = .next (s.erred 2)) ∧
    (s.init = true → 0 < n → (8 * s.buf.len : Int) < s.pos.toNat + n → exec (.seek n) s = .next (s.erred 3)) ∧
    (s.Sound → s.init = true → 0 < n → s.pos.toNat + n ≤ (8 * s.buf.len : Int) →
      exec (.seek n) s = .next ((s.movedTo (s.pos.toNat + n.toNat) 1).returned 0))

/-- 40_cursor_fixed.md R84: FLUSH, its encoding included. -/
def Obligations.FlushReachesTheByteBoundary : Prop :=
  ∀ s : State,
    (∀ a b : Word, decode ⟨0x00000003, a, b⟩ = .ok .flush) ∧
    (s.init = false → exec .flush s = .next (s.erred 4)) ∧
    (s.init = true → s.pos.toNat % 8 = 0 → exec .flush s = .next (s.returned 0)) ∧
    (s.Sound → s.init = true → s.pos.toNat % 8 ≠ 0 →
      8 * (s.pos.toNat / 8 + 1) ≤ 8 * s.buf.len ∧
      exec .flush s = .next ((s.movedTo (8 * (s.pos.toNat / 8 + 1)) 1).returned 0))

/-- 40_cursor_fixed.md R91: seek additivity. Every one of the three seeks succeeds, and both sequences end at
`pos + a + b` with a cursor. `la` agrees at every bit that lies in the buffer and at the low zero bits; the rest are
draws of the two last reloads. -/
def Obligations.SeeksAdd : Prop :=
  ∀ (a b : Int) (s : State), s.Sound → s.init = true → 0 < a → 0 < b → s.pos.toNat + a + b ≤ (8 * s.buf.len : Int) →
    ∃ t u : State, execAll [.seek a, .seek b] s = .next t ∧ execAll [.seek (a + b)] s = .next u ∧
      t.responses = s.responses ++ [.done, .done] ∧ u.responses = s.responses ++ [.done] ∧
      (t.pos.toNat : Int) = s.pos.toNat + a + b ∧ t.pos = u.pos ∧ t.init = true ∧ t.init = u.init ∧
      (∀ j, j ≤ 31 → u.pos.toNat + j < 8 * s.buf.len → t.la.getLsbD (31 - j) = u.la.getLsbD (31 - j)) ∧
      (∀ j, j < u.pos.toNat % 8 → t.la.getLsbD j = u.la.getLsbD j)

/-- 40_cursor_fixed.md R96: GETPOS, its encoding included. -/
def Obligations.GetposReturnsThePosition : Prop :=
  ∀ s : State,
    (∀ a b : Word, decode ⟨0x0000000F, a, b⟩ = .ok .getpos) ∧
    (s.init = false → exec .getpos s = .next (s.erred 4)) ∧
    (s.init = true → exec .getpos s = .next (s.returned (BitVec.ofNat 64 s.pos.toNat))) ∧
    (s.Sound → s.init = true → s.pos.toNat ≤ 8 * s.buf.len)

/-- 40_cursor_fixed.md R97: GETLA, its encoding included, and what the lookahead it shows is. -/
def Obligations.GetlaReturnsTheLookahead : Prop :=
  ∀ s : State,
    (∀ a b : Word, decode ⟨0x00000010, a, b⟩ = .ok .getla) ∧
    (s.init = false → exec .getla s = .next (s.erred 4)) ∧
    (s.init = true → exec .getla s = .next (s.returned (BitVec.ofNat 64 s.la.toNat))) ∧
    (s.Sound → s.init = true → (∃ d, d < s.reloads ∧ s.la = s.buf.reload s.draws d s.pos.toNat) ∧
      ∀ j, j < s.pos.toNat % 8 → s.la.getLsbD j = false)

/-! ## Fixed-width reads -/

/-- 40_cursor_fixed.md R85: RDBIT, its encoding included. -/
def Obligations.RdbitReadsTheNextBit : Prop :=
  ∀ s : State,
    (∀ a b : Word, decode ⟨0x00000004, a, b⟩ = .ok .rdbit) ∧
    (s.init = false → exec .rdbit s = .next (s.erred 4)) ∧
    (s.init = true → 8 * s.buf.len < s.pos.toNat + 1 → exec .rdbit s = .next (s.erred 3)) ∧
    (s.Sound → s.init = true → s.pos.toNat + 1 ≤ 8 * s.buf.len →
      exec .rdbit s = .next ((s.movedTo (s.pos.toNat + 1) 1).returned
        (if s.buf.streamBit s.pos.toNat then 1 else 0)))

/-- 40_cursor_fixed.md R86, R88: RDB, its encoding included, returns `Field(pos, n)`, and the position after it is
`pos + n`. -/
def Obligations.RdbReadsTheField : Prop :=
  ∀ (n : Nat) (s : State),
    (n ≤ 255 → ∀ a b : Word, decode ⟨BitVec.ofNat 32 (n * 2 ^ 8 + 0x05), a, b⟩ = .ok (.rdb n)) ∧
    (s.init = false → exec (.rdb n) s = .next (s.erred 4)) ∧
    (s.init = true → n < 1 ∨ 32 < n → exec (.rdb n) s = .next (s.erred 2)) ∧
    (s.init = true → 1 ≤ n → n ≤ 32 → 8 * s.buf.len < s.pos.toNat + n → exec (.rdb n) s = .next (s.erred 3)) ∧
    (s.Sound → s.init = true → 1 ≤ n → n ≤ 32 → s.pos.toNat + n ≤ 8 * s.buf.len →
      exec (.rdb n) s = .next ((s.movedTo (s.pos.toNat + n) (if n ≤ 24 then 1 else 2)).returned
        (BitVec.ofNat 64 (s.buf.field s.pos.toNat n))))

/-- 40_cursor_fixed.md R87: RDBS, its encoding included, returns the field as a signed value, in its 32-bit pattern.
-/
def Obligations.RdbsReadsTheSignedField : Prop :=
  ∀ (n : Nat) (s : State),
    (n ≤ 255 → ∀ a b : Word, decode ⟨BitVec.ofNat 32 (n * 2 ^ 8 + 0x06), a, b⟩ = .ok (.rdbs n)) ∧
    (s.init = false → exec (.rdbs n) s = .next (s.erred 4)) ∧
    (s.init = true → n < 1 ∨ 32 < n → exec (.rdbs n) s = .next (s.erred 2)) ∧
    (s.init = true → 1 ≤ n → n ≤ 32 → 8 * s.buf.len < s.pos.toNat + n → exec (.rdbs n) s = .next (s.erred 3)) ∧
    (s.Sound → s.init = true → 1 ≤ n → n ≤ 32 → s.pos.toNat + n ≤ 8 * s.buf.len →
      exec (.rdbs n) s = .next ((s.movedTo (s.pos.toNat + n) (if n ≤ 24 then 1 else 2)).returned
        ((BitVec.ofInt 32 (s.buf.signedField s.pos.toNat n)).setWidth 64)))

/-- 40_cursor_fixed.md R89: RDB64, its encoding included, returns `Field(pos, n)`, in `ceil(n/24)` reloads
(20_memory.md R50). -/
def Obligations.Rdb64ReadsTheField : Prop :=
  ∀ (n : Nat) (s : State),
    (n ≤ 255 → ∀ a b : Word, decode ⟨BitVec.ofNat 32 (n * 2 ^ 8 + 0x07), a, b⟩ = .ok (.rdb64 n)) ∧
    (s.init = false → exec (.rdb64 n) s = .next (s.erred 4)) ∧
    (s.init = true → n < 1 ∨ 64 < n → exec (.rdb64 n) s = .next (s.erred 2)) ∧
    (s.init = true → 1 ≤ n → n ≤ 64 → 8 * s.buf.len < s.pos.toNat + n → exec (.rdb64 n) s = .next (s.erred 3)) ∧
    (s.Sound → s.init = true → 1 ≤ n → n ≤ 64 → s.pos.toNat + n ≤ 8 * s.buf.len →
      exec (.rdb64 n) s = .next ((s.movedTo (s.pos.toNat + n) ((n + 23) / 24)).returned
        (BitVec.ofNat 64 (s.buf.field s.pos.toNat n))))

/-- 40_cursor_fixed.md R90: RDB64S, its encoding included, returns the field as a signed 64-bit value. -/
def Obligations.Rdb64sReadsTheSignedField : Prop :=
  ∀ (n : Nat) (s : State),
    (n ≤ 255 → ∀ a b : Word, decode ⟨BitVec.ofNat 32 (n * 2 ^ 8 + 0x08), a, b⟩ = .ok (.rdb64s n)) ∧
    (s.init = false → exec (.rdb64s n) s = .next (s.erred 4)) ∧
    (s.init = true → n < 1 ∨ 64 < n → exec (.rdb64s n) s = .next (s.erred 2)) ∧
    (s.init = true → 1 ≤ n → n ≤ 64 → 8 * s.buf.len < s.pos.toNat + n → exec (.rdb64s n) s = .next (s.erred 3)) ∧
    (s.Sound → s.init = true → 1 ≤ n → n ≤ 64 → s.pos.toNat + n ≤ 8 * s.buf.len →
      exec (.rdb64s n) s = .next ((s.movedTo (s.pos.toNat + n) ((n + 23) / 24)).returned
        (BitVec.ofInt 64 (s.buf.signedField s.pos.toNat n))))

/-- 40_cursor_fixed.md R92: reading widths in order returns the consecutive fields, with RDB for widths up to 32 and
with RDB64 for widths up to 64. -/
def Obligations.ReadsInOrderReturnTheFields : Prop :=
  ∀ (ws : List Nat) (s : State), s.Sound → s.init = true → s.pos.toNat + ws.sum ≤ 8 * s.buf.len →
    ((∀ w ∈ ws, 1 ≤ w ∧ w ≤ 32) → ∃ t, execAll (ws.map .rdb) s = .next t ∧
      t.responses = s.responses ++
        (s.buf.fieldsFrom s.pos.toNat ws).map (fun v => ⟨0, true, BitVec.ofNat 64 v⟩) ∧
      t.pos.toNat = s.pos.toNat + ws.sum) ∧
    ((∀ w ∈ ws, 1 ≤ w ∧ w ≤ 64) → ∃ t, execAll (ws.map .rdb64) s = .next t ∧
      t.responses = s.responses ++
        (s.buf.fieldsFrom s.pos.toNat ws).map (fun v => ⟨0, true, BitVec.ofNat 64 v⟩) ∧
      t.pos.toNat = s.pos.toNat + ws.sum)

/-! ## Unary codes -/

/-- 41_cursor_varlen.md R111, R112: RDUN, its encoding included, returns the distance to the first set bit and
consumes that bit; without one before the buffer's end it raises EndOfStream. -/
def Obligations.RdunReturnsTheDistanceToTheFirstSetBit : Prop :=
  ∀ s : State,
    (∀ a b : Word, decode ⟨0x00000009, a, b⟩ = .ok .rdun) ∧
    (s.init = false → exec .rdun s = .next (s.erred 4)) ∧
    (s.init = true → (∀ q, s.pos.toNat ≤ q → q < 8 * s.buf.len → s.buf.streamBit q = false) →
      exec .rdun s = .next (s.erred 3)) ∧
    (∀ t, s.Sound → s.init = true → s.buf.firstSet s.pos.toNat t →
      exec .rdun s = .next ((s.movedTo (t + 1) ((t - s.pos.toNat) / 8 + 1)).returned
        (BitVec.ofNat 64 (t - s.pos.toNat))))

/-- 41_cursor_varlen.md R113: RDUNS, its encoding included, maps the unary value `v` to `v/2` when it is even and to
`-(v+1)/2` when it is odd. -/
def Obligations.RdunsReturnsTheZigzagOfTheUnaryValue : Prop :=
  ∀ s : State,
    (∀ a b : Word, decode ⟨0x0000000A, a, b⟩ = .ok .rduns) ∧
    (s.init = false → exec .rduns s = .next (s.erred 4)) ∧
    (s.init = true → (∀ q, s.pos.toNat ≤ q → q < 8 * s.buf.len → s.buf.streamBit q = false) →
      exec .rduns s = .next (s.erred 3)) ∧
    (∀ t, s.Sound → s.init = true → s.buf.firstSet s.pos.toNat t →
      exec .rduns s = .next ((s.movedTo (t + 1) ((t - s.pos.toNat) / 8 + 1)).returned
        ((BitVec.ofInt 32 (if (t - s.pos.toNat) % 2 = 0 then (((t - s.pos.toNat) / 2 : Nat) : Int)
          else -(((t - s.pos.toNat + 1) / 2 : Nat) : Int))).setWidth 64)))

/-- 41_cursor_varlen.md R114: the zig-zag law, and that the map is a bijection of the 32-bit patterns. -/
def Obligations.ZigzagIsABijection : Prop :=
  (∀ v : Word, (zigzag v).toInt =
    if v.toNat % 2 = 0 then ((v.toNat / 2 : Nat) : Int) else -(((v.toNat + 1) / 2 : Nat) : Int)) ∧
  Function.Bijective zigzag

/-! ## UTF-8-like integers -/

/-- 41_cursor_varlen.md R120, R121: a valid integer. -/
def Obligations.Utf8ReadsAValidInteger : Prop :=
  ∀ (i : Instr) (w kMax lo hi k : Nat) (s : State), (i, w, kMax) ∈ utf8Forms → (lo, hi, k) ∈ utf8Rows →
    s.Sound → s.init = true → k ≤ kMax → s.pos.toNat + 8 * (k + 1) ≤ 8 * s.buf.len →
    lo ≤ (s.buf.octet s.pos.toNat).toNat → (s.buf.octet s.pos.toNat).toNat ≤ hi →
    (∀ j, j < k → s.buf.continuesAt (s.pos.toNat + 8 * (j + 1))) →
    exec i s = .next ((s.movedTo (s.pos.toNat + 8 * (k + 1)) (k + 1)).returned
      (BitVec.ofNat 64 (s.buf.utf8Value s.pos.toNat ((s.buf.octet s.pos.toNat).toNat - lo) k)))

/-- 41_cursor_varlen.md R120, R121: a leading byte that fails is consumed. -/
def Obligations.Utf8LeadingByteFails : Prop :=
  ∀ (i : Instr) (w kMax : Nat) (s : State), (i, w, kMax) ∈ utf8Forms →
    s.Sound → s.init = true → s.pos.toNat + 8 ≤ 8 * s.buf.len →
    (s.buf.continuesAt s.pos.toNat ∨ s.buf.octet s.pos.toNat = 0xFF ∨
      (s.buf.octet s.pos.toNat = 0xFE ∧ kMax = 5)) →
    exec i s = .next ((s.movedTo (s.pos.toNat + 8) 1).mismatched w)

/-- 41_cursor_varlen.md R121: the first continuation byte that does not match fails and is consumed. -/
def Obligations.Utf8ContinuationByteFails : Prop :=
  ∀ (i : Instr) (w kMax lo hi k j : Nat) (s : State), (i, w, kMax) ∈ utf8Forms → (lo, hi, k) ∈ utf8Rows →
    s.Sound → s.init = true → k ≤ kMax → j < k → s.pos.toNat + 8 * (j + 2) ≤ 8 * s.buf.len →
    lo ≤ (s.buf.octet s.pos.toNat).toNat → (s.buf.octet s.pos.toNat).toNat ≤ hi →
    (∀ j', j' < j → s.buf.continuesAt (s.pos.toNat + 8 * (j' + 1))) →
    ¬ s.buf.continuesAt (s.pos.toNat + 8 * (j + 1)) →
    exec i s = .next ((s.movedTo (s.pos.toNat + 8 * (j + 2)) (j + 2)).mismatched w)

/-- 41_cursor_varlen.md R121, 20_memory.md R50: a byte the decode needs runs past the buffer. The cursor is rolled
back; that the reloads of the bytes read before count on the port is the model's reading of R50 (log 10). -/
def Obligations.Utf8RollsBackAtTheEndOfTheBuffer : Prop :=
  ∀ (i : Instr) (w kMax : Nat) (s : State), (i, w, kMax) ∈ utf8Forms → s.Sound → s.init = true →
    (8 * s.buf.len < s.pos.toNat + 8 → exec i s = .next (s.erred 3)) ∧
    (∀ lo hi k j, (lo, hi, k) ∈ utf8Rows → k ≤ kMax → j < k →
      s.pos.toNat + 8 * (j + 1) ≤ 8 * s.buf.len → 8 * s.buf.len < s.pos.toNat + 8 * (j + 2) →
      lo ≤ (s.buf.octet s.pos.toNat).toNat → (s.buf.octet s.pos.toNat).toNat ≤ hi →
      (∀ j', j' < j → s.buf.continuesAt (s.pos.toNat + 8 * (j' + 1))) →
      exec i s = .next ((s.withReloads (j + 1)).erred 3))

/-- 41_cursor_varlen.md R123, R125: the signed forms give the same pattern as the unsigned ones. -/
def Obligations.SignedUtf8FormsKeepThePattern : Prop :=
  ∀ s : State, exec .rdu8s s = exec .rdu8 s ∧ exec .rdu8ls s = exec .rdu8l s

/-! ## Checksums -/

/-- 42_crc.md R144, R146: CRC8, its encoding included, by the table, byte by byte. -/
def Obligations.Crc8FollowsTheTable : Prop :=
  ∀ (off cnt : Nat) (s : State),
    (∀ a b : Word, decode ⟨0x00000020, a, b⟩ = .ok (.crc8 a.toNat b.toNat)) ∧
    (s.buf.len < off + cnt → exec (.crc8 off cnt) s = .next (s.erred 2)) ∧
    (off ≤ s.buf.len → exec (.crc8 off 0) s = .next (s.returned 0)) ∧
    (s.Sound → off + (cnt + 1) ≤ s.buf.len → ∃ r : BitVec 8,
      exec (.crc8 off cnt) s = .next ((s.countCrcReads cnt).returned (r.setWidth 64)) ∧
      exec (.crc8 off (cnt + 1)) s = .next ((s.countCrcReads (cnt + 1)).returned
        ((tableAt State.reset.t8 (r ^^^ s.buf.byteAt (off + cnt))).setWidth 64)))

/-- 42_crc.md R145, R146: CRC16, its encoding included, by the table, byte by byte. -/
def Obligations.Crc16FollowsTheTable : Prop :=
  ∀ (off cnt : Nat) (s : State),
    (∀ a b : Word, decode ⟨0x00000021, a, b⟩ = .ok (.crc16 a.toNat b.toNat)) ∧
    (s.buf.len < off + cnt → exec (.crc16 off cnt) s = .next (s.erred 2)) ∧
    (off ≤ s.buf.len → exec (.crc16 off 0) s = .next (s.returned 0)) ∧
    (s.Sound → off + (cnt + 1) ≤ s.buf.len → ∃ r : BitVec 16,
      exec (.crc16 off cnt) s = .next ((s.countCrcReads cnt).returned (r.setWidth 64)) ∧
      exec (.crc16 off (cnt + 1)) s = .next ((s.countCrcReads (cnt + 1)).returned
        (((r <<< 8) ^^^ tableAt State.reset.t16 ((r >>> 8).setWidth 8 ^^^ s.buf.byteAt (off + cnt))).setWidth 64)))

/-- 42_crc.md R147: the two checksums are the remainders of `M(x) * x^8` and `M(x) * x^16` by their polynomials. -/
def Obligations.ChecksumsArePolynomialRemainders : Prop :=
  ∀ (off cnt : Nat) (s : State), s.Sound → off + cnt ≤ s.buf.len →
    exec (.crc8 off cnt) s =
      .next ((s.countCrcReads cnt).returned (BitVec.ofNat 64 (s.buf.polynomialCrc 8 0x107 off cnt))) ∧
    exec (.crc16 off cnt) s =
      .next ((s.countCrcReads cnt).returned (BitVec.ofNat 64 (s.buf.polynomialCrc 16 0x18005 off cnt)))

/-- 42_crc.md R147: a message followed by its checksum, the high byte first, has checksum 0. -/
def Obligations.AppendingTheChecksumGivesZero : Prop :=
  ∀ (off cnt : Nat) (s : State), s.Sound →
    (∀ r : BitVec 8, off + cnt + 1 ≤ s.buf.len →
      exec (.crc8 off cnt) s = .next ((s.countCrcReads cnt).returned (r.setWidth 64)) →
      s.buf.byteAt (off + cnt) = r →
      exec (.crc8 off (cnt + 1)) s = .next ((s.countCrcReads (cnt + 1)).returned 0)) ∧
    (∀ r : BitVec 16, off + cnt + 2 ≤ s.buf.len →
      exec (.crc16 off cnt) s = .next ((s.countCrcReads cnt).returned (r.setWidth 64)) →
      s.buf.byteAt (off + cnt) = r.extractLsb' 8 8 → s.buf.byteAt (off + cnt + 1) = r.extractLsb' 0 8 →
      exec (.crc16 off (cnt + 2)) s = .next ((s.countCrcReads (cnt + 2)).returned 0))

/-! ## The buffer -/

/-- 20_memory.md R40 (the form is the model's own, log 6): the buffer of a byte list is canonical and reads as those
bytes, and a canonical buffer is determined by its length and its bytes. -/
def Obligations.BufferFormIsCanonical : Prop :=
  (∀ bs : List Byte, bs.length ≤ 2 ^ 28 → (Memory.ofBytes bs).wf = true ∧ (Memory.ofBytes bs).len = bs.length ∧
    ∀ (i : Nat) (h : i < bs.length), (Memory.ofBytes bs).byteAt i = bs[i]) ∧
  (∀ m m' : Memory, m.wf = true → m'.wf = true → m.len = m'.len →
    (∀ i, i < m.len → m.byteAt i = m'.byteAt i) → m = m')

/-- 20_memory.md R42, R43, R49: a reload at any position is four bytes, big-endian, shifted left by the residual; past
the end it reads that reload's own draws. -/
def Obligations.ReloadIsBigEndianAndShifted : Prop :=
  ∀ (m : Memory) (ds : List Byte) (d q : Nat),
    (m.reload ds d q).toNat =
      ((m.read ds (4 * d) (q / 8)).toNat * 2 ^ 24 + (m.read ds (4 * d + 1) (q / 8 + 1)).toNat * 2 ^ 16 +
        (m.read ds (4 * d + 2) (q / 8 + 2)).toNat * 2 ^ 8 + (m.read ds (4 * d + 3) (q / 8 + 3)).toNat) *
        2 ^ (q % 8) % 2 ^ 32 ∧
    ∀ j i, (i < m.len → m.read ds j i = m.byteAt i) ∧ (m.len ≤ i → m.read ds j i = padByte ds j)
end

