-- ==== Sys2Proof/Laws/Decode.lean ====
section
/-! SUPPORT. The fields of a command word, by number and after encoding, and the operands' way through their words. -/

namespace Sys2Proof

/-- `OP` by number (30_encoding.md R61). -/
theorem Command.op_toNat (c : Command) : c.op.toNat = c.cw.toNat % 2 ^ 8 := by
  simp [Command.op, BitVec.extractLsb'_toNat]

/-- `N` by number (30_encoding.md R61). -/
theorem Command.n_toNat (c : Command) : c.n.toNat = c.cw.toNat / 2 ^ 8 % 2 ^ 8 := by
  simp [Command.n, BitVec.extractLsb'_toNat, Nat.shiftRight_eq_div_pow]

/-- `RSV` by number (30_encoding.md R61). -/
theorem Command.rsv_toNat (c : Command) : c.rsv.toNat = c.cw.toNat / 2 ^ 16 := by
  have := c.cw.isLt
  simp only [Command.rsv, BitVec.extractLsb'_toNat, Nat.shiftRight_eq_div_pow]
  omega

/-- A command word by number. -/
theorem commandWord_toNat (op n : Byte) : (commandWord op n).toNat = n.toNat * 2 ^ 8 + op.toNat := by
  have h := op.isLt
  simp only [commandWord, BitVec.toNat_append, Nat.shiftLeft_eq]
  have h2 := n.isLt
  rw [show (0 : BitVec 16).toNat = 0 from rfl, Nat.zero_mul, Nat.zero_or, ← Nat.shiftLeft_eq,
    ← Nat.shiftLeft_add_eq_or_of_lt h, Nat.shiftLeft_eq]

@[simp] theorem commandWord_op (op n : Byte) (a b : Word) : (Command.mk (commandWord op n) a b).op = op :=
  BitVec.eq_of_toNat_eq (by
    have := op.isLt
    rw [Command.op_toNat, commandWord_toNat]; omega)

@[simp] theorem commandWord_n (op n : Byte) (a b : Word) : (Command.mk (commandWord op n) a b).n = n :=
  BitVec.eq_of_toNat_eq (by
    have := op.isLt
    have := n.isLt
    rw [Command.n_toNat, commandWord_toNat]; omega)

@[simp] theorem commandWord_rsv (op n : Byte) (a b : Word) : (Command.mk (commandWord op n) a b).rsv = 0 :=
  BitVec.eq_of_toNat_eq (by
    have := op.isLt
    have := n.isLt
    rw [Command.rsv_toNat, commandWord_toNat, show (0 : BitVec 16).toNat = 0 from rfl]; omega)

/-- A command word is its fields (30_encoding.md R61). -/
theorem Command.cw_eq (c : Command) (h : c.rsv = 0) : c.cw = commandWord c.op c.n :=
  BitVec.eq_of_toNat_eq (by
    have hr : c.cw.toNat / 2 ^ 16 = 0 := by rw [← c.rsv_toNat, h]; rfl
    rw [commandWord_toNat, c.op_toNat, c.n_toNat]; omega)

/-- A signed operand comes back from its word (30_encoding.md R62). -/
theorem toInt_ofInt_of_fits {v : Int} (h : fitsSigned32 v = true) : (BitVec.ofInt 32 v).toInt = v := by
  simp only [fitsSigned32, Bool.and_eq_true, decide_eq_true_eq] at h
  rw [BitVec.toInt_ofInt, Int.bmod_eq_of_le] <;> omega

/-- A signed word's value fits its word. -/
theorem fits_toInt (w : Word) : fitsSigned32 w.toInt = true := by
  have h1 := BitVec.toInt_lt (x := w)
  have h2 := BitVec.le_toInt w
  simp only [fitsSigned32, Bool.and_eq_true, decide_eq_true_eq]
  exact ⟨h2, h1⟩

/-- What the decoder has read when it answers an instruction: no reserved bit, the instruction's opcode and width
field, operands that fit, and the operand words the instruction uses (30_encoding.md R61 to R65). -/
theorem decode_ok {c : Command} {i : Instr} (h : decode c = .ok i) :
    c.rsv = 0 ∧ c.op = i.opcode ∧ c.n = i.widthField ∧ i.wellFormed = true ∧
      (i.usesArg0 = true → i.arg0 = c.arg0) ∧ (i.usesArg1 = true → i.arg1 = c.arg1) := by
  have key : ∀ n : Byte, c.op.toNat = n.toNat → c.op = n := fun n hn => BitVec.eq_of_toNat_eq hn
  have h0 := c.arg0.isLt
  have h1 := c.arg1.isLt
  have hn := c.n.isLt
  unfold decode at h
  split at h
  · cases h
  rename_i hr
  refine ⟨by simpa using hr, ?_⟩
  simp only [plainRow] at h
  split at h <;> rename_i ho <;> (try split at h) <;>
    first
      | (injection h with h; subst h; refine ⟨key _ ho, ?_⟩)
      | cases h
  all_goals
    simp_all [Instr.widthField, Instr.wellFormed, Instr.usesArg0, Instr.usesArg1, Instr.arg0, Instr.arg1,
      fits_toInt, fitsWidthField, fitsUnsigned32]

end Sys2Proof
end

