-- ==== Sys2Proof/Laws/Assembler.lean ====
section
/-! SUPPORT. The assembler's operands, and which row each mnemonic selects. -/

namespace Sys2Proof

/-- A width that fits its field is that field. -/
theorem widthOperand_of_fits {n : Nat} (h : fitsWidthField n = true) : widthOperand n = some (BitVec.ofNat 8 n) := by
  have h := of_decide_eq_true h
  rw [widthOperand, if_pos (by omega)]
  simp

/-- A signed operand that fits is its word. -/
theorem signedOperand_of_fits {v : Int} (h : fitsSigned32 v = true) : signedOperand v = some (BitVec.ofInt 32 v) := by
  simp only [fitsSigned32, Bool.and_eq_true, decide_eq_true_eq] at h
  rw [signedOperand, if_pos (by omega)]

/-- An unsigned operand that fits is its word. -/
theorem unsignedOperand_of_fits {v : Nat} (h : fitsUnsigned32 v = true) :
    unsignedOperand v = some (BitVec.ofNat 32 v) := by
  have h := of_decide_eq_true h
  rw [unsignedOperand, if_pos (by omega)]
  simp

/-- What the assembler lays out for a signed operand that fits. -/
theorem asmSigned_of_fits (op : Byte) {v : Int} (h : fitsSigned32 v = true) :
    asmSigned op [v] = some ⟨commandWord op 0, BitVec.ofInt 32 v, 0⟩ := by
  rw [asmSigned, signedOperand_of_fits h]; rfl

/-- What the assembler lays out for a width that fits. -/
theorem asmWidth_of_fits (op : Byte) {n : Nat} (h : fitsWidthField n = true) :
    asmWidth op [(n : Int)] = some ⟨commandWord op (BitVec.ofNat 8 n), 0, 0⟩ := by
  rw [asmWidth, widthOperand_of_fits h]; rfl

/-- What the assembler lays out for an offset and a count that fit. -/
theorem asmRange_of_fits (op : Byte) {off cnt : Nat} (h : fitsUnsigned32 off = true)
    (h' : fitsUnsigned32 cnt = true) :
    asmRange op [(off : Int), (cnt : Int)] =
      some ⟨commandWord op 0, BitVec.ofNat 32 off, BitVec.ofNat 32 cnt⟩ := by
  rw [asmRange, unsignedOperand_of_fits h, unsignedOperand_of_fits h']

/-- How the assembler lays out the operands of an instruction's mnemonic. -/
def asmRow (i : Instr) : List Int → Option Command :=
  match i with
  | .init _ | .seek _ => asmSigned i.opcode
  | .rdb _ | .rdbs _ | .rdb64 _ | .rdb64s _ => asmWidth i.opcode
  | .crc8 _ _ | .crc16 _ _ => asmRange i.opcode
  | .flush | .rdbit | .rdun | .rduns | .rdu8 | .rdu8s | .rdu8l | .rdu8ls | .getpos | .getla => asmPlain i.opcode

/-- Each mnemonic selects its own row (30_encoding.md R68). -/
theorem assemble_mnemonic (i : Instr) (ops : List Int) : assemble i.mnemonic ops = asmRow i ops := by
  cases i <;> simp only [Instr.mnemonic, assemble, String.reduceEq, if_true, if_false, asmRow, Instr.opcode]

end Sys2Proof
end

