-- ==== Sys2Proof/Laws/State.lean ====
section
/-! SUPPORT. One lemma per field per update of the state. -/

namespace Sys2Proof.Machine

section Answer
variable (s : State) (r : Response)
@[simp] theorem State.answer_init : (s.answer r).init = s.init := rfl
@[simp] theorem State.answer_pos : (s.answer r).pos = s.pos := rfl
@[simp] theorem State.answer_la : (s.answer r).la = s.la := rfl
@[simp] theorem State.answer_t8 : (s.answer r).t8 = s.t8 := rfl
@[simp] theorem State.answer_t16 : (s.answer r).t16 = s.t16 := rfl
@[simp] theorem State.answer_lz8 : (s.answer r).lz8 = s.lz8 := rfl
@[simp] theorem State.answer_buf : (s.answer r).buf = s.buf := rfl
@[simp] theorem State.answer_program : (s.answer r).program = s.program := rfl
@[simp] theorem State.answer_k : (s.answer r).k = s.k + 1 := rfl
@[simp] theorem State.answer_responses : (s.answer r).responses = s.responses ++ [r] := rfl
@[simp] theorem State.answer_draws : (s.answer r).draws = s.draws := rfl
@[simp] theorem State.answer_reloads : (s.answer r).reloads = s.reloads := rfl
@[simp] theorem State.answer_crcReads : (s.answer r).crcReads = s.crcReads := rfl
@[simp] theorem State.answer_bitLen : (s.answer r).bitLen = s.bitLen := rfl
end Answer

section MovedTo
variable (s : State) (q r : Nat)
@[simp] theorem State.movedTo_init : (s.movedTo q r).init = s.init := rfl
@[simp] theorem State.movedTo_pos : (s.movedTo q r).pos = BitVec.ofNat 32 q := rfl
@[simp] theorem State.movedTo_la : (s.movedTo q r).la = s.buf.reload s.draws (s.reloads + r - 1) q := rfl
@[simp] theorem State.movedTo_t8 : (s.movedTo q r).t8 = s.t8 := rfl
@[simp] theorem State.movedTo_t16 : (s.movedTo q r).t16 = s.t16 := rfl
@[simp] theorem State.movedTo_lz8 : (s.movedTo q r).lz8 = s.lz8 := rfl
@[simp] theorem State.movedTo_buf : (s.movedTo q r).buf = s.buf := rfl
@[simp] theorem State.movedTo_program : (s.movedTo q r).program = s.program := rfl
@[simp] theorem State.movedTo_k : (s.movedTo q r).k = s.k := rfl
@[simp] theorem State.movedTo_responses : (s.movedTo q r).responses = s.responses := rfl
@[simp] theorem State.movedTo_draws : (s.movedTo q r).draws = s.draws := rfl
@[simp] theorem State.movedTo_reloads : (s.movedTo q r).reloads = s.reloads + r := rfl
@[simp] theorem State.movedTo_crcReads : (s.movedTo q r).crcReads = s.crcReads := rfl
@[simp] theorem State.movedTo_bitLen : (s.movedTo q r).bitLen = s.bitLen := rfl
end MovedTo

section Advance
variable (s : State) (k : Nat)
@[simp] theorem State.advance_init : (s.advance k).init = s.init := rfl
@[simp] theorem State.advance_pos : (s.advance k).pos = BitVec.ofNat 32 (s.pos.toNat + k) := rfl
@[simp] theorem State.advance_t8 : (s.advance k).t8 = s.t8 := rfl
@[simp] theorem State.advance_t16 : (s.advance k).t16 = s.t16 := rfl
@[simp] theorem State.advance_lz8 : (s.advance k).lz8 = s.lz8 := rfl
@[simp] theorem State.advance_buf : (s.advance k).buf = s.buf := rfl
@[simp] theorem State.advance_program : (s.advance k).program = s.program := rfl
@[simp] theorem State.advance_k : (s.advance k).k = s.k := rfl
@[simp] theorem State.advance_responses : (s.advance k).responses = s.responses := rfl
@[simp] theorem State.advance_draws : (s.advance k).draws = s.draws := rfl
@[simp] theorem State.advance_reloads : (s.advance k).reloads = s.reloads + 1 := rfl
@[simp] theorem State.advance_crcReads : (s.advance k).crcReads = s.crcReads := rfl
@[simp] theorem State.advance_bitLen : (s.advance k).bitLen = s.bitLen := rfl
end Advance

section CountCrcReads
variable (s : State) (n : Nat)
@[simp] theorem State.countCrcReads_init : (s.countCrcReads n).init = s.init := rfl
@[simp] theorem State.countCrcReads_pos : (s.countCrcReads n).pos = s.pos := rfl
@[simp] theorem State.countCrcReads_la : (s.countCrcReads n).la = s.la := rfl
@[simp] theorem State.countCrcReads_t8 : (s.countCrcReads n).t8 = s.t8 := rfl
@[simp] theorem State.countCrcReads_t16 : (s.countCrcReads n).t16 = s.t16 := rfl
@[simp] theorem State.countCrcReads_lz8 : (s.countCrcReads n).lz8 = s.lz8 := rfl
@[simp] theorem State.countCrcReads_buf : (s.countCrcReads n).buf = s.buf := rfl
@[simp] theorem State.countCrcReads_program : (s.countCrcReads n).program = s.program := rfl
@[simp] theorem State.countCrcReads_k : (s.countCrcReads n).k = s.k := rfl
@[simp] theorem State.countCrcReads_responses : (s.countCrcReads n).responses = s.responses := rfl
@[simp] theorem State.countCrcReads_draws : (s.countCrcReads n).draws = s.draws := rfl
@[simp] theorem State.countCrcReads_reloads : (s.countCrcReads n).reloads = s.reloads := rfl
@[simp] theorem State.countCrcReads_crcReads : (s.countCrcReads n).crcReads = s.crcReads + n := rfl
end CountCrcReads

section RollBackTo
variable (t s : State)
@[simp] theorem State.rollBackTo_init : (t.rollBackTo s).init = t.init := rfl
@[simp] theorem State.rollBackTo_pos : (t.rollBackTo s).pos = s.pos := rfl
@[simp] theorem State.rollBackTo_la : (t.rollBackTo s).la = s.la := rfl
@[simp] theorem State.rollBackTo_t8 : (t.rollBackTo s).t8 = t.t8 := rfl
@[simp] theorem State.rollBackTo_t16 : (t.rollBackTo s).t16 = t.t16 := rfl
@[simp] theorem State.rollBackTo_lz8 : (t.rollBackTo s).lz8 = t.lz8 := rfl
@[simp] theorem State.rollBackTo_buf : (t.rollBackTo s).buf = t.buf := rfl
@[simp] theorem State.rollBackTo_program : (t.rollBackTo s).program = t.program := rfl
@[simp] theorem State.rollBackTo_k : (t.rollBackTo s).k = t.k := rfl
@[simp] theorem State.rollBackTo_responses : (t.rollBackTo s).responses = t.responses := rfl
@[simp] theorem State.rollBackTo_draws : (t.rollBackTo s).draws = t.draws := rfl
@[simp] theorem State.rollBackTo_reloads : (t.rollBackTo s).reloads = t.reloads := rfl
@[simp] theorem State.rollBackTo_crcReads : (t.rollBackTo s).crcReads = t.crcReads := rfl
end RollBackTo

section AfterReset
variable (p l : Word) (m : Memory) (c : List Command) (ds : List Byte) (n x : Nat)
@[simp] theorem State.afterReset_init : (State.afterReset p l m c ds n x).init = false := rfl
@[simp] theorem State.afterReset_pos : (State.afterReset p l m c ds n x).pos = p := rfl
@[simp] theorem State.afterReset_la : (State.afterReset p l m c ds n x).la = l := rfl
@[simp] theorem State.afterReset_t8 : (State.afterReset p l m c ds n x).t8 = crc8Table := rfl
@[simp] theorem State.afterReset_t16 : (State.afterReset p l m c ds n x).t16 = crc16Table := rfl
@[simp] theorem State.afterReset_lz8 : (State.afterReset p l m c ds n x).lz8 = leadingZeroTable := rfl
@[simp] theorem State.afterReset_buf : (State.afterReset p l m c ds n x).buf = m := rfl
@[simp] theorem State.afterReset_program : (State.afterReset p l m c ds n x).program = c := rfl
@[simp] theorem State.afterReset_k : (State.afterReset p l m c ds n x).k = 0 := rfl
@[simp] theorem State.afterReset_responses : (State.afterReset p l m c ds n x).responses = [] := rfl
@[simp] theorem State.afterReset_draws : (State.afterReset p l m c ds n x).draws = ds := rfl
@[simp] theorem State.afterReset_reloads : (State.afterReset p l m c ds n x).reloads = n := rfl
@[simp] theorem State.afterReset_crcReads : (State.afterReset p l m c ds n x).crcReads = x := rfl
end AfterReset

/-- Every run starts in the reset state over its own buffer, command list and draws. -/
theorem State.launch_eq (m : Memory) (c : List Command) (ds : List Byte) :
    State.launch m c ds = State.afterReset 0 0 m c ds 0 0 := rfl

/-- One internal seek is a move by one reload, as long as the position fits its register. -/
theorem State.advance_eq_movedTo (s : State) (k : Nat) (h : s.pos.toNat + k < 2 ^ 32) :
    s.advance k = s.movedTo (s.pos.toNat + k) 1 := by
  have hp : (BitVec.ofNat 32 (s.pos.toNat + k)).toNat = s.pos.toNat + k := by
    rw [BitVec.toNat_ofNat, Nat.mod_eq_of_lt h]
  simp only [State.advance, State.setPos, State.reload, State.movedTo, hp, Nat.add_sub_cancel]

/-- Two moves are one move to the second position by all the reloads. -/
theorem State.movedTo_movedTo (s : State) (q q' a b : Nat) :
    (s.movedTo q a).movedTo q' b = s.movedTo q' (a + b) := by
  simp [State.movedTo, Nat.add_assoc]

end Sys2Proof.Machine
end

