-- ==== Sys2Proof/Laws/Checksum.lean ====
section
/-! SUPPORT. The checksum loops over a byte range. -/

namespace Sys2Proof.Machine

/-- Splitting a range is incremental (42_crc.md R147). -/
theorem crcLoop_add {w : Nat} (f : BitVec w → Byte → BitVec w) (m : Memory) (off a b : Nat) (r : BitVec w) :
    crcLoop f m off (a + b) r = crcLoop f m (off + a) b (crcLoop f m off a r) := by
  induction a generalizing off r with
  | zero => simp [crcLoop]
  | succ a ih =>
    rw [show a + 1 + b = a + b + 1 by omega, crcLoop, crcLoop, ih, show off + 1 + a = off + (a + 1) by omega]

/-- The loop reads the buffer only. -/
theorem crcLoop_congr {w : Nat} (f : BitVec w → Byte → BitVec w) (m m' : Memory) (off cnt : Nat) (r : BitVec w)
    (h : ∀ i, off ≤ i → i < off + cnt → m.byteAt i = m'.byteAt i) :
    crcLoop f m off cnt r = crcLoop f m' off cnt r := by
  induction cnt generalizing off r with
  | zero => rfl
  | succ cnt ih =>
    rw [crcLoop, crcLoop, h off le_rfl (by omega)]
    exact ih _ _ fun i h1 h2 => h i (by omega) (by omega)

/-- The last byte of a range is the last step of its loop (42_crc.md R144, R145). -/
theorem crcLoop_succ {w : Nat} (f : BitVec w → Byte → BitVec w) (m : Memory) (off cnt : Nat) (r : BitVec w) :
    crcLoop f m off (cnt + 1) r = f (crcLoop f m off cnt r) (m.byteAt (off + cnt)) := by
  rw [crcLoop_add]; rfl

end Sys2Proof.Machine
end

