-- ==== Sys2Proof/Laws/Memory.lean ====
section
/-! SUPPORT. The buffer memory: its canonical form and what it reads, the bits a reload loads, and the arithmetic of
fields of stream bits. -/

namespace Sys2Proof.Machine

/-! ## The canonical form -/

theorem cellAt_of_lt {cs : List Host.Cell} {lo i : Nat} (h : cellsRise lo cs = true) (hi : i < lo) :
    cellAt cs i = Memory.unlisted := by
  induction cs generalizing lo with
  | nil => rfl
  | cons c cs ih =>
    obtain ⟨a, b⟩ := c
    simp only [cellsRise, Bool.and_eq_true, decide_eq_true_eq] at h
    rw [cellAt, if_neg (by omega)]
    exact ih h.2 (by omega)

theorem cellsOfBytes_rise (i : Nat) (bs : List Byte) : cellsRise i (cellsOfBytes i bs) = true := by
  suffices h : ∀ lo, lo ≤ i → cellsRise lo (cellsOfBytes i bs) = true from h i le_rfl
  induction bs generalizing i with
  | nil => intro lo _; rfl
  | cons b bs ih =>
    intro lo hlo
    rw [cellsOfBytes]
    split
    · exact ih (i + 1) lo (by omega)
    · simp [cellsRise, hlo, ih (i + 1) (i + 1) le_rfl]

theorem cellsOfBytes_mem {i : Nat} {bs : List Byte} {c : Host.Cell} (h : c ∈ cellsOfBytes i bs) :
    i ≤ c.1 ∧ c.1 < i + bs.length ∧ c.2 ≠ Memory.unlisted := by
  induction bs generalizing i with
  | nil => simp [cellsOfBytes] at h
  | cons b bs ih =>
    rw [cellsOfBytes] at h
    rw [List.length_cons]
    split at h
    · have := ih h; exact ⟨by omega, by omega, this.2.2⟩
    · rcases List.mem_cons.1 h with rfl | h
      · exact ⟨le_rfl, by simp, by assumption⟩
      · have := ih h; exact ⟨by omega, by omega, this.2.2⟩

/-- The buffer of a byte list is in canonical form, if it is not too long. -/
theorem Memory.ofBytes_wf (bs : List Byte) (h : bs.length ≤ Config.maxLen) : (Memory.ofBytes bs).wf = true := by
  simp only [Memory.wf, Memory.ofBytes, h, decide_true, cellsOfBytes_rise, Bool.and_self, Bool.true_and,
    List.all_eq_true, Bool.and_eq_true, decide_eq_true_eq]
  intro c hc
  have := cellsOfBytes_mem hc
  exact ⟨decide_eq_true (by omega), this.2.2⟩

theorem cellAt_cellsOfBytes (i : Nat) (bs : List Byte) (j : Nat) (h : j < bs.length) :
    cellAt (cellsOfBytes i bs) (i + j) = bs[j] := by
  induction bs generalizing i j with
  | nil => simp at h
  | cons b bs ih =>
    rw [cellsOfBytes]
    cases j with
    | zero =>
      split
      · rw [cellAt_of_lt (cellsOfBytes_rise (i + 1) bs) (by omega)]
        simpa using Eq.symm ‹b = _›
      · simp [cellAt]
    | succ j =>
      have hj : j < bs.length := by simpa using h
      have := ih (i + 1) j hj
      rw [show i + 1 + j = i + (j + 1) by omega] at this
      split
      · simpa using this
      · rw [cellAt, if_neg (by omega)]; simpa using this

/-- The buffer of a byte list reads as those bytes (20_memory.md R40). -/
theorem Memory.byteAt_ofBytes (bs : List Byte) (i : Nat) (h : i < bs.length) :
    (Memory.ofBytes bs).byteAt i = bs[i] := by
  have := cellAt_cellsOfBytes 0 bs i h
  rwa [Nat.zero_add] at this

theorem Memory.len_le_of_wf {m : Memory} (h : m.wf = true) : m.len ≤ 2 ^ 28 := by
  simp only [Memory.wf, Bool.and_eq_true] at h
  exact of_decide_eq_true h.1.1

/-! ## What a reload loads -/

/-- Bit by bit, the 4-byte read is its four bytes, most significant first (20_memory.md R42). -/
theorem Memory.read4_bit (m : Memory) (ds : List Byte) (d i j : Nat) (hj : j < 32) :
    (m.read4 ds d i).getLsbD (31 - j) = (m.read ds (4 * d + j / 8) (i + j / 8)).getLsbD (7 - j % 8) := by
  simp only [Memory.read4, BitVec.getLsbD_append]
  have h : j / 8 = 0 ∨ j / 8 = 1 ∨ j / 8 = 2 ∨ j / 8 = 3 := by omega
  rcases h with h | h | h | h <;> simp only [h, Nat.add_zero] <;> (repeat' split) <;>
    first
      | omega
      | (congr 1; omega)

theorem Memory.reload_bit (m : Memory) (ds : List Byte) (d q j : Nat) (hj : q % 8 + j < 32) :
    (m.reload ds d q).getLsbD (31 - j) =
      (m.read ds (4 * d + (q % 8 + j) / 8) ((q + j) / 8)).getLsbD (7 - (q + j) % 8) := by
  have h1 : 31 - j - q % 8 = 31 - (q % 8 + j) := by omega
  have h2 : q / 8 + (q % 8 + j) / 8 = (q + j) / 8 := by omega
  have h3 : (q % 8 + j) % 8 = (q + j) % 8 := by omega
  have h4 : 31 - j < 32 ∧ ¬ 31 - j < q % 8 := by omega
  rw [Memory.reload, BitVec.getLsbD_shiftLeft, h1, Memory.read4_bit _ _ _ _ _ hj, h2, h3]
  simp [h4.1, h4.2]

/-- Inside the buffer, the lookahead holds the stream bits, left-justified (10_state.md R23). -/
theorem Memory.reload_bit_inside (m : Memory) (ds : List Byte) (d q j : Nat) (hj : q % 8 + j < 32)
    (hq : q + j < 8 * m.len) : (m.reload ds d q).getLsbD (31 - j) = m.streamBit (q + j) := by
  rw [Memory.reload_bit m ds d q j hj, Memory.read, if_pos (by omega), Memory.streamBit]

/-- Past the buffer, it holds bits of that reload's draws (10_state.md R23). -/
theorem Memory.reload_bit_past (m : Memory) (ds : List Byte) (d q j : Nat) (hj : q % 8 + j < 32)
    (hq : 8 * m.len ≤ q + j) : (m.reload ds d q).getLsbD (31 - j) =
      (padByte ds (4 * d + (q % 8 + j) / 8)).getLsbD (7 - (q + j) % 8) := by
  rw [Memory.reload_bit m ds d q j hj, Memory.read, if_neg (by omega)]

/-- The low `q mod 8` bits of a reload are zero (10_state.md R23). -/
theorem Memory.reload_bit_low (m : Memory) (ds : List Byte) (d q i : Nat) (hi : i < q % 8) :
    (m.reload ds d q).getLsbD i = false := by
  simp [Memory.reload, BitVec.getLsbD_shiftLeft, hi]

/-! ## Fields -/

@[simp] theorem Memory.field_zero (m : Memory) (q : Nat) : m.field q 0 = 0 := by simp [Memory.field]

/-- A field grows by one stream bit at its least significant end. -/
theorem Memory.field_succ (m : Memory) (q n : Nat) :
    m.field q (n + 1) = 2 * m.field q n + (m.streamBit (q + n)).toNat := by
  have h : ((List.range n).map fun j => (m.streamBit (q + j)).toNat * 2 ^ (n + 1 - 1 - j)) =
      (List.range n).map fun j => 2 * ((m.streamBit (q + j)).toNat * 2 ^ (n - 1 - j)) := by
    refine List.map_congr_left fun j hj => ?_
    have hj := List.mem_range.1 hj
    rw [show n + 1 - 1 - j = (n - 1 - j) + 1 by omega, pow_succ]
    ring
  rw [Memory.field, List.range_succ, List.map_append, List.sum_append, h, List.sum_map_mul_left]
  simp [Memory.field]

theorem Memory.field_lt (m : Memory) (q n : Nat) : m.field q n < 2 ^ n := by
  induction n with
  | zero => simp
  | succ n ih =>
    have := Bool.toNat_le (m.streamBit (q + n))
    rw [Memory.field_succ, pow_succ]
    omega

/-- A field of `a + b` bits is the field of the first `a` bits followed by that of the other `b`. -/
theorem Memory.field_add (m : Memory) (q a b : Nat) :
    m.field q (a + b) = m.field q a * 2 ^ b + m.field (q + a) b := by
  induction b with
  | zero => simp
  | succ b ih =>
    rw [← Nat.add_assoc, Memory.field_succ, ih, Memory.field_succ, Nat.add_assoc, pow_succ]
    ring

theorem Memory.field_testBit (m : Memory) (q n i : Nat) :
    (m.field q n).testBit i = (decide (i < n) && m.streamBit (q + (n - 1 - i))) := by
  induction n generalizing i with
  | zero => simp
  | succ n ih =>
    rw [Memory.field_succ]
    cases i with
    | zero => cases h : m.streamBit (q + n) <;> simp [Nat.testBit_zero, h]
    | succ i =>
      have := Bool.toNat_lt (m.streamBit (q + n))
      rw [Nat.testBit_succ, show (2 * m.field q n + (m.streamBit (q + n)).toNat) / 2 = m.field q n by omega, ih]
      by_cases hi : i < n
      · simp [hi, show n - (i + 1) = n - 1 - i by omega]
      · simp [hi]

/-- The first bit of a field is its most significant one. -/
theorem Memory.field_msb (m : Memory) (q n : Nat) (hn : 1 ≤ n) :
    (m.field q n).testBit (n - 1) = m.streamBit q := by
  rw [Memory.field_testBit]
  simp [show n - 1 < n by omega]

/-- The top bits of a lookahead are a field (40_cursor_fixed.md R88). -/
theorem Memory.topBits_reload (m : Memory) (ds : List Byte) (d q n : Nat) (hn : n ≤ 25)
    (hq : q + n ≤ 8 * m.len) : topBits (m.reload ds d q) n = BitVec.ofNat 32 (m.field q n) := by
  refine BitVec.eq_of_getLsbD_eq fun i hi => ?_
  rw [topBits, BitVec.getLsbD_ushiftRight, BitVec.getLsbD_ofNat, Memory.field_testBit]
  by_cases h : i < n
  · rw [show 32 - n + i = 31 - (n - 1 - i) by omega, Memory.reload_bit_inside _ _ _ _ _ (by omega) (by omega)]
    simp [h, hi]
  · rw [BitVec.getLsbD_of_ge _ _ (by omega)]
    simp [h]

/-- A set bit is found exactly where there is one. -/
theorem Memory.anySet_eq_true (m : Memory) (n q : Nat) :
    m.anySet n q = true ↔ ∃ t, q ≤ t ∧ t < q + n ∧ m.streamBit t = true := by
  induction n generalizing q with
  | zero => simp only [Memory.anySet]; constructor
            · simp
            · rintro ⟨t, h1, h2, -⟩; omega
  | succ n ih =>
    rw [Memory.anySet, Bool.or_eq_true, ih]
    constructor
    · rintro (h | ⟨t, h1, h2, h3⟩)
      · exact ⟨q, le_rfl, by omega, h⟩
      · exact ⟨t, by omega, by omega, h3⟩
    · rintro ⟨t, h1, h2, h3⟩
      rcases Nat.eq_or_lt_of_le h1 with rfl | h
      · exact .inl h3
      · exact .inr ⟨t, h, by omega, h3⟩

/-- Where there is a set bit, there is a first one. -/
theorem Memory.exists_firstSet (m : Memory) (n q : Nat) (h : m.anySet n q = true) :
    ∃ t, q ≤ t ∧ t < q + n ∧ m.streamBit t = true ∧ ∀ r, q ≤ r → r < t → m.streamBit r = false := by
  classical
  have hx := (m.anySet_eq_true n q).1 h
  refine ⟨Nat.find hx, (Nat.find_spec hx).1, (Nat.find_spec hx).2.1, (Nat.find_spec hx).2.2, fun r h1 h2 => ?_⟩
  have := Nat.find_min hx h2
  have hn := (Nat.find_spec hx).2.1
  simpa [h1, show r < q + n by omega] using this

end Sys2Proof.Machine
end

