-- ==== Sys2Proof/Laws/Reads.lean ====
section
/-! SUPPORT. What the shared reads do, each said once: `ReadCore`, the chunks of RDB64, `ReadByte`, the unary read. -/

namespace Sys2Proof.Machine

/-- What a read relies on: the lookahead is a reload of the position, and positions up to the buffer's end fit their
register. -/
structure State.Loaded (s : State) : Prop where
  /-- The lookahead is a reload at the position (10_state.md R23). -/
  window : ∃ d, s.la = s.buf.reload s.draws d s.pos.toNat
  /-- The bound on `L` (00_scope.md R6). -/
  small : s.buf.len ≤ 2 ^ 28

theorem State.Sound.loaded {s : State} (h : s.Sound) (hi : s.init = true) : s.Loaded :=
  ⟨let ⟨d, _, hd⟩ := h.lookahead hi; ⟨d, hd⟩, Memory.len_le_of_wf h.bufWf⟩

/-- Moving within the buffer leaves the cursor loaded. -/
theorem State.Loaded.movedTo {s : State} (h : s.Loaded) {q : Nat} (hq : q ≤ s.bitLen) (r : Nat) :
    (s.movedTo q r).Loaded := by
  have := h.small
  refine ⟨⟨s.reloads + r - 1, ?_⟩, h.small⟩
  rw [State.movedTo_pos, BitVec.toNat_ofNat, Nat.mod_eq_of_lt (by simp only [State.bitLen] at hq; omega)]
  rfl

theorem State.Loaded.pos_movedTo {s : State} (h : s.Loaded) {q : Nat} (hq : q ≤ s.bitLen) (r : Nat) :
    (s.movedTo q r).pos.toNat = q := by
  have := h.small
  rw [State.movedTo_pos, BitVec.toNat_ofNat, Nat.mod_eq_of_lt (by simp only [State.bitLen] at hq; omega)]

theorem State.Loaded.advance {s : State} (h : s.Loaded) {k : Nat} (hk : s.pos.toNat + k ≤ s.bitLen) :
    s.advance k = s.movedTo (s.pos.toNat + k) 1 :=
  s.advance_eq_movedTo k (by have := h.small; simp only [State.bitLen] at hk; omega)

theorem State.Loaded.topBits {s : State} (h : s.Loaded) {n : Nat} (hn : n ≤ 25) (hk : s.pos.toNat + n ≤ s.bitLen) :
    Machine.topBits s.la n = BitVec.ofNat 32 (s.buf.field s.pos.toNat n) := by
  obtain ⟨d, hd⟩ := h.window
  rw [hd, Memory.topBits_reload _ _ _ _ _ hn hk]

/-- Two adjacent fields put together by a shift and an OR. -/
theorem Memory.field_shift_or (m : Memory) {w : Nat} (q a b : Nat) :
    (BitVec.ofNat w (m.field q a) <<< b) ||| BitVec.ofNat w (m.field (q + a) b) =
      BitVec.ofNat w (m.field q (a + b)) := by
  refine BitVec.eq_of_getLsbD_eq fun i hi => ?_
  simp only [BitVec.getLsbD_or, BitVec.getLsbD_shiftLeft, BitVec.getLsbD_ofNat, Memory.field_testBit, hi,
    decide_true, Bool.true_and]
  by_cases h : i < b
  · simp [h, show i < a + b by omega, show q + a + (b - 1 - i) = q + (a + b - 1 - i) by omega]
  · have h1 : decide (i - b < a) = decide (i < a + b) := decide_eq_decide.2 (by omega)
    have h2 : i - b < w := by omega
    simp only [h, h1, h2, decide_true, decide_false, Bool.not_false, Bool.true_and, Bool.false_and, Bool.or_false]
    by_cases h' : i < a + b
    · simp [h', show a - 1 - (i - b) = a + b - 1 - i by omega]
    · simp [h']

/-- `ReadCore(n) = Field(pos, n)`, and the position after it is `pos + n` (40_cursor_fixed.md R86, R88). -/
theorem readCore_eq {s : State} (h : s.Loaded) {n : Nat} (hn : n ≤ 32) (hk : s.pos.toNat + n ≤ s.bitLen) :
    readCore n s = (BitVec.ofNat 32 (s.buf.field s.pos.toNat n),
      s.movedTo (s.pos.toNat + n) (if n ≤ 24 then 1 else 2)) := by
  rw [readCore]
  split
  · rw [h.topBits (by omega) hk, h.advance hk]
  · have h24 : s.pos.toNat + 24 ≤ s.bitLen := by omega
    have hm := h.movedTo h24 1
    have hp := h.pos_movedTo h24 1
    have hhi : s.la >>> 8 = Machine.topBits s.la 24 := rfl
    have hk' : (s.movedTo (s.pos.toNat + 24) 1).pos.toNat + (n - 24) ≤ (s.movedTo (s.pos.toNat + 24) 1).bitLen := by
      rw [hp, State.movedTo_bitLen]; omega
    simp only [h.advance h24, hhi]
    rw [h.topBits (by omega) h24, hm.topBits (by omega) hk', hm.advance hk', hp, State.movedTo_movedTo,
      State.movedTo_buf, Memory.field_shift_or, show 24 + (n - 24) = n by omega,
      show s.pos.toNat + 24 + (n - 24) = s.pos.toNat + n by omega]

/-- The chunks of RDB64 put `m` further bits behind `x`, in `ceil(m/24)` reloads (40_cursor_fixed.md R89, 20_memory.md
R50). -/
theorem readChunks_eq {fuel m : Nat} (x : Long) {s : State} (h : s.Loaded) (hm : 1 ≤ m) (hf : m ≤ 24 * fuel)
    (hk : s.pos.toNat + m ≤ s.bitLen) :
    readChunks fuel m x s = ((x <<< m) ||| BitVec.ofNat 64 (s.buf.field s.pos.toNat m),
      s.movedTo (s.pos.toNat + m) ((m + 23) / 24)) := by
  induction fuel generalizing m x s with
  | zero => omega
  | succ fuel ih =>
    have hc : min 24 m ≤ 24 := by omega
    have hkc : s.pos.toNat + min 24 m ≤ s.bitLen := by omega
    rw [readChunks, if_neg (by omega), readCore_eq h (by omega) hkc, if_pos hc]
    dsimp only
    have hv : (BitVec.ofNat 32 (s.buf.field s.pos.toNat (min 24 m))).setWidth 64 =
        BitVec.ofNat 64 (s.buf.field s.pos.toNat (min 24 m)) := by
      have := s.buf.field_lt s.pos.toNat (min 24 m)
      have : (2 : Nat) ^ min 24 m ≤ 2 ^ 24 := Nat.pow_le_pow_right (by omega) hc
      refine BitVec.eq_of_toNat_eq ?_
      simp only [BitVec.toNat_setWidth, BitVec.toNat_ofNat]
      omega
    rw [hv]
    by_cases hle : m ≤ 24
    · have hmin : min 24 m = m := by omega
      rw [hmin, Nat.sub_self, show (m + 23) / 24 = 1 by omega]
      cases fuel <;> simp [readChunks]
    · have hmin : min 24 m = 24 := by omega
      rw [hmin] at hkc ⊢
      have hp := h.pos_movedTo hkc 1
      rw [ih _ (h.movedTo hkc 1) (by omega) (by omega) (by rw [hp, State.movedTo_bitLen]; omega), hp,
        State.movedTo_movedTo, State.movedTo_buf]
      refine Prod.ext ?_ ?_
      · have hj := s.buf.field_shift_or (w := 64) s.pos.toNat 24 (m - 24)
        rw [show 24 + (m - 24) = m by omega] at hj
        dsimp only
        rw [BitVec.shiftLeft_or_distrib, ← BitVec.shiftLeft_add, BitVec.or_assoc, hj,
          show 24 + (m - 24) = m by omega]
      · dsimp only
        rw [show s.pos.toNat + 24 + (m - 24) = s.pos.toNat + m by omega,
          show 1 + (m - 24 + 23) / 24 = (m + 23) / 24 by omega]

/-- The whole read of RDB64 is a field (40_cursor_fixed.md R89). -/
theorem readCore64_eq {s : State} (h : s.Loaded) {n : Nat} (h1 : 1 ≤ n) (h2 : n ≤ 64)
    (hk : s.pos.toNat + n ≤ s.bitLen) :
    readCore64 n s = (BitVec.ofNat 64 (s.buf.field s.pos.toNat n),
      s.movedTo (s.pos.toNat + n) ((n + 23) / 24)) := by
  rw [readCore64, readChunks_eq 0 h h1 (by omega) hk]
  simp

/-- The common checks pass exactly when the read may go on (40_cursor_fixed.md R81). -/
theorem fieldError_eq_none {max n : Nat} {s : State} :
    fieldError max n s = none ↔
      s.init = true ∧ (1 ≤ n ∧ n ≤ max) ∧ s.pos.toNat + n ≤ s.bitLen := by
  rw [fieldError]
  constructor
  · intro h
    split at h <;> [cases h; split at h <;> [cases h; split at h <;> [cases h; skip]]]
    rename_i h1 h2 h3
    exact ⟨by simpa using h1, by omega, by omega⟩
  · rintro ⟨h1, ⟨h2, h3⟩, h4⟩
    rw [if_neg (by simp [h1]), if_neg (by omega), if_neg (by omega)]

/-- `ReadByte()` gives the next 8 stream bits, or nothing when they do not lie in the buffer (41_cursor_varlen.md
R121). -/
theorem readByte_eq {s : State} (h : s.Loaded) :
    readByte s = if s.bitLen < s.pos.toNat + 8 then none
      else some (s.buf.octet s.pos.toNat, s.movedTo (s.pos.toNat + 8) 1) := by
  rw [readByte]
  split
  · rfl
  · rw [readCore_eq h (by omega) (by omega), if_pos (by omega)]
    have := s.buf.field_lt s.pos.toNat 8
    congr 2
    refine BitVec.eq_of_toNat_eq ?_
    simp only [Memory.octet, BitVec.toNat_setWidth, BitVec.toNat_ofNat]
    omega

/-! ## The unary read -/

theorem tableAt_leadingZeroTable (b : Byte) : tableAt leadingZeroTable b = leadingZeros8 b.toNat := by
  simp [tableAt, leadingZeroTable]

/-- The table counts the zero bits before the first set bit (41_cursor_varlen.md R110). -/
theorem leadingZeros8_eq : ∀ (b : BitVec 8) (j : Fin 8), (∀ i : Fin 8, i < j → b.getLsbD (7 - i) = false) →
    b.getLsbD (7 - j) = true → leadingZeros8 b.toNat = BitVec.ofNat 4 j := by
  decide +kernel

/-- The bits of the lookahead's top byte are the next stream bits that lie in the buffer. -/
theorem State.Loaded.topByte_bit {s : State} (h : s.Loaded) {j : Nat} (hj : j < 8)
    (hk : s.pos.toNat + j < s.bitLen) : (topByte s.la).getLsbD (7 - j) = s.buf.streamBit (s.pos.toNat + j) := by
  obtain ⟨d, hd⟩ := h.window
  rw [topByte, BitVec.getLsbD_extractLsb', show 24 + (7 - j) = 31 - j by omega, hd,
    Memory.reload_bit_inside _ _ _ _ _ (by omega) hk]
  simp [show 7 - j < 8 by omega]

/-- The loop and the last step of RDUN, from any count that is a multiple of 8 (41_cursor_varlen.md R112). -/
theorem skipZeroBytes_eq {fuel : Nat} (c : Word) {s : State} (h : s.Loaded) (hz : s.lz8 = leadingZeroTable)
    (hc : c.toNat % 8 = 0) {t : Nat} (ht : s.buf.firstSet s.pos.toNat t) (hf : (t - s.pos.toNat) / 8 < fuel) :
    finishUnary (skipZeroBytes fuel c s).1 (skipZeroBytes fuel c s).2 =
      (c + BitVec.ofNat 32 (t - s.pos.toNat), s.movedTo (t + 1) ((t - s.pos.toNat) / 8 + 1)) := by
  induction fuel generalizing c s with
  | zero => omega
  | succ fuel ih =>
    obtain ⟨h1, h2, h3, h4⟩ := ht
    have hlen : s.bitLen = 8 * s.buf.len := rfl
    rw [skipZeroBytes]
    by_cases hfar : s.pos.toNat + 8 ≤ t
    · have hzero : topByte s.la = 0 := by
        refine BitVec.eq_of_getLsbD_eq fun i hi => ?_
        have := h.topByte_bit (j := 7 - i) (by omega) (by omega)
        rw [show 7 - (7 - i) = i by omega] at this
        rw [this, h4 _ (by omega) (by omega)]
        simp
      have hk : s.pos.toNat + 8 ≤ s.bitLen := by omega
      have hp := h.pos_movedTo hk 1
      have hc8 : (c + 8).toNat % 8 = 0 := by simp [BitVec.toNat_add]; omega
      have hih := ih (c + 8) (h.movedTo hk 1) hz hc8
        ⟨by rw [hp]; exact hfar, h2, h3, fun q hq1 hq2 => h4 q (by rw [hp] at hq1; omega) hq2⟩
        (by rw [hp]; omega)
      rw [if_pos hzero, h.advance hk]
      rw [hp, State.movedTo_movedTo] at hih
      rw [hih, show 1 + ((t - (s.pos.toNat + 8)) / 8 + 1) = (t - s.pos.toNat) / 8 + 1 by omega, BitVec.add_assoc]
      congr 2
      refine BitVec.eq_of_toNat_eq ?_
      simp [BitVec.toNat_add]
      omega
    · have hj : t - s.pos.toNat < 8 := by omega
      have hset := h.topByte_bit hj (by omega)
      rw [show s.pos.toNat + (t - s.pos.toNat) = t by omega, h3] at hset
      have hne : topByte s.la ≠ 0 := by
        intro h0; rw [h0] at hset; simp at hset
      have hlz := leadingZeros8_eq (topByte s.la) ⟨t - s.pos.toNat, hj⟩
        (fun i hi => by
          have hi' : i.val < t - s.pos.toNat := hi
          rw [h.topByte_bit i.isLt (by omega)]
          exact h4 _ (by omega) (by omega)) hset
      rw [if_neg hne]
      simp only [finishUnary, hz, tableAt_leadingZeroTable, hlz]
      have hn : (c + (BitVec.ofNat 4 (t - s.pos.toNat)).setWidth 32).toNat % 8 = t - s.pos.toNat := by
        simp only [BitVec.toNat_add, BitVec.toNat_setWidth, BitVec.toNat_ofNat]
        omega
      rw [hn, h.advance (by omega), show (t - s.pos.toNat) / 8 + 1 = 1 by omega,
        show s.pos.toNat + (t - s.pos.toNat + 1) = t + 1 by omega]
      congr 2
      refine BitVec.eq_of_toNat_eq ?_
      simp only [BitVec.toNat_setWidth, BitVec.toNat_ofNat]
      omega

/-- The closed form of the unary read (41_cursor_varlen.md R112): the distance to the first set bit, which it
consumes, by one reload for each whole zero byte and one more. -/
theorem readUnary_eq {s : State} (h : s.Loaded) (hz : s.lz8 = leadingZeroTable) {t : Nat}
    (ht : s.buf.firstSet s.pos.toNat t) :
    readUnary s = (BitVec.ofNat 32 (t - s.pos.toNat), s.movedTo (t + 1) ((t - s.pos.toNat) / 8 + 1)) := by
  have h2 := ht.2.1
  rw [readUnary, skipZeroBytes_eq 0 h hz rfl ht (by omega)]
  simp

/-- The unary checks pass exactly when a first set bit lies ahead in the buffer (41_cursor_varlen.md R111). -/
theorem unaryError_eq_none {s : State} (hp : s.pos.toNat ≤ s.bitLen) :
    unaryError s = none ↔ s.init = true ∧ ∃ t, s.buf.firstSet s.pos.toNat t := by
  have hlen : s.bitLen = 8 * s.buf.len := rfl
  rw [unaryError]
  constructor
  · intro h
    split at h
    · simp at h
    split at h
    · simp at h
    · rename_i h1 h2
      obtain ⟨t, ht⟩ := s.buf.exists_firstSet _ _ (by simpa using h2)
      exact ⟨by simpa using h1, t, ht.1, by omega, ht.2.2.1, ht.2.2.2⟩
  · rintro ⟨h1, t, h2, h3, h4, -⟩
    rw [if_neg (by simp [h1]), if_neg]
    rw [(s.buf.anySet_eq_true _ _).2 ⟨t, h2, by omega, h4⟩]
    simp

end Sys2Proof.Machine
end

