-- ==== Sys2Proof/Laws/Utf8.lean ====
section
/-! SUPPORT. The UTF-8-like decoder as a function of the buffer alone: how it ends and how many bytes it consumes. -/

namespace Sys2Proof.Machine

/-- The cursor after `n` whole bytes, one reload each (41_cursor_varlen.md R121, 20_memory.md R50). -/
def State.afterBytes (s : State) (n : Nat) : State :=
  if n = 0 then s else s.movedTo (s.pos.toNat + 8 * n) n

/-- The continuation bytes at `q`, read from the buffer. -/
def Memory.utf8Tail (m : Memory) {w : Nat} : (k : Nat) → BitVec w → Nat → Utf8End w × Nat
  | 0, v, _ => (.value v, 0)
  | k + 1, v, q =>
    if 8 * m.len < q + 8 then (.endOfStream, 0)
    else if isContinuation (m.octet q) then
      ((m.utf8Tail k (appendContinuation v (m.octet q)) (q + 8)).1,
        (m.utf8Tail k (appendContinuation v (m.octet q)) (q + 8)).2 + 1)
    else (.failure, 1)

/-- The whole decode at `q`, read from the buffer. -/
def Memory.utf8Ending (m : Memory) (w kMax q : Nat) : Utf8End w × Nat :=
  if 8 * m.len < q + 8 then (.endOfStream, 0)
  else match leadByte (m.octet q) with
    | none => (.failure, 1)
    | some (k, v) =>
      if kMax < k then (.failure, 1)
      else ((m.utf8Tail k (v.setWidth w) (q + 8)).1, (m.utf8Tail k (v.setWidth w) (q + 8)).2 + 1)

theorem State.Loaded.afterBytes_succ {s : State} (h : s.Loaded) (hk : s.pos.toNat + 8 ≤ s.bitLen) (n : Nat) :
    (s.movedTo (s.pos.toNat + 8) 1).afterBytes n = s.afterBytes (n + 1) := by
  rw [State.afterBytes, State.afterBytes, if_neg (Nat.succ_ne_zero n), h.pos_movedTo hk, State.movedTo_movedTo]
  split
  · simp [*]
  · rw [show s.pos.toNat + 8 + 8 * n = s.pos.toNat + 8 * (n + 1) by omega, Nat.add_comm 1 n]

theorem utf8Continue_eq {w k : Nat} (v : BitVec w) {s : State} (h : s.Loaded) :
    utf8Continue k v s = ((s.buf.utf8Tail k v s.pos.toNat).1, s.afterBytes (s.buf.utf8Tail k v s.pos.toNat).2) := by
  induction k generalizing v s with
  | zero => rfl
  | succ k ih =>
    rw [utf8Continue, readByte_eq h, Memory.utf8Tail]
    by_cases hend : s.bitLen < s.pos.toNat + 8
    · rw [if_pos hend, if_pos (show 8 * s.buf.len < s.pos.toNat + 8 from hend)]; rfl
    · rw [if_neg hend, if_neg (show ¬ 8 * s.buf.len < s.pos.toNat + 8 from hend)]
      have hk : s.pos.toNat + 8 ≤ s.bitLen := by omega
      dsimp only
      split
      · rw [ih _ (h.movedTo hk 1), h.pos_movedTo hk, State.movedTo_buf, h.afterBytes_succ hk]
      · rfl

/-- The decoder ends as the buffer says, at the byte it has reached (41_cursor_varlen.md R121). -/
theorem utf8Decode_eq {w kMax : Nat} {s : State} (h : s.Loaded) :
    utf8Decode w kMax s =
      ((s.buf.utf8Ending w kMax s.pos.toNat).1, s.afterBytes (s.buf.utf8Ending w kMax s.pos.toNat).2) := by
  rw [utf8Decode, readByte_eq h, Memory.utf8Ending]
  by_cases hend : s.bitLen < s.pos.toNat + 8
  · rw [if_pos hend, if_pos (show 8 * s.buf.len < s.pos.toNat + 8 from hend)]; rfl
  · rw [if_neg hend, if_neg (show ¬ 8 * s.buf.len < s.pos.toNat + 8 from hend)]
    have hk : s.pos.toNat + 8 ≤ s.bitLen := by omega
    dsimp only
    cases hl : leadByte (s.buf.octet s.pos.toNat) with
    | none => rfl
    | some kv =>
      obtain ⟨k, v⟩ := kv
      dsimp only
      split
      · rfl
      · rw [utf8Continue_eq _ (h.movedTo hk 1), h.pos_movedTo hk, State.movedTo_buf, h.afterBytes_succ hk]

/-- What a UTF-8-like read answers once a cursor exists (41_cursor_varlen.md R121 to R125). -/
theorem utf8Respond_eq {w kMax : Nat} (cast : BitVec w → BitVec w) {s : State} (h : s.Loaded) (hi : s.init = true) :
    utf8Respond w kMax cast s =
      match (s.buf.utf8Ending w kMax s.pos.toNat).1 with
      | .value v => respond (.value (cast v)) (s.afterBytes (s.buf.utf8Ending w kMax s.pos.toNat).2)
      | .failure =>
        respond (.failed (cast (BitVec.allOnes w))) (s.afterBytes (s.buf.utf8Ending w kMax s.pos.toNat).2)
      | .endOfStream =>
        raise .endOfStream ((s.afterBytes (s.buf.utf8Ending w kMax s.pos.toNat).2).rollBackTo s) := by
  rw [utf8Respond, if_neg (by simp [hi]), utf8Decode_eq h]
  cases (s.buf.utf8Ending w kMax s.pos.toNat).1 <;> rfl

/-- The two's-complement cast keeps the pattern (41_cursor_varlen.md R123, R125). -/
@[simp] theorem signedPattern_eq {w : Nat} (v : BitVec w) : signedPattern v = v := BitVec.ofInt_toInt

/-- A decode never consumes bytes past the buffer. -/
theorem Memory.utf8Tail_le (m : Memory) {w k : Nat} (v : BitVec w) (q : Nat) (hq : q ≤ 8 * m.len) :
    q + 8 * (m.utf8Tail k v q).2 ≤ 8 * m.len ∧ (m.utf8Tail k v q).2 ≤ k := by
  induction k generalizing v q with
  | zero => simpa [Memory.utf8Tail] using hq
  | succ k ih =>
    rw [Memory.utf8Tail]
    split
    · simpa using hq
    · split
      · have := ih (appendContinuation v (m.octet q)) (q + 8) (by omega)
        dsimp only; omega
      · dsimp only; omega

theorem leadByte_le : ∀ (x : BitVec 8) (k : Nat) (v : BitVec 8), leadByte x = some (k, v) → k ≤ 6 := by
  intro x k v h
  simp only [leadByte] at h
  repeat' split at h
  all_goals simp_all <;> omega

/-- A decode consumes at most 7 bytes, all of them in the buffer (70_reset_and_hazards.md R183). -/
theorem Memory.utf8Ending_le (m : Memory) (w kMax q : Nat) (hq : q ≤ 8 * m.len) :
    q + 8 * (m.utf8Ending w kMax q).2 ≤ 8 * m.len ∧ (m.utf8Ending w kMax q).2 ≤ 7 := by
  rw [Memory.utf8Ending]
  split
  · simpa using hq
  · cases hl : leadByte (m.octet q) with
    | none => dsimp only; omega
    | some kv =>
      obtain ⟨k, v⟩ := kv
      have hk := leadByte_le _ _ _ hl
      have := m.utf8Tail_le (k := k) (v.setWidth w) (q + 8) (by omega)
      dsimp only
      split <;> dsimp only <;> omega

end Sys2Proof.Machine
end

