-- ==== Sys2Proof/Laws/Exec.lean ====
section
/-! SUPPORT. What a command can do, said once for all of them: it answers a next state, produces one response, and
leaves everything but the cursor and the memory port's counters as it was. -/

namespace Sys2Proof.Machine

/-- `t` differs from `s` at most in `init`, `pos`, `la` and the two counters, and the counters have not gone back. -/
structure State.Keeps (s t : State) : Prop where
  /-- `T8` is as before. -/
  t8 : t.t8 = s.t8
  /-- `T16` is as before. -/
  t16 : t.t16 = s.t16
  /-- `LZ8` is as before. -/
  lz8 : t.lz8 = s.lz8
  /-- The buffer is as before (20_memory.md R47). -/
  buf : t.buf = s.buf
  /-- The command list is as before. -/
  program : t.program = s.program
  /-- The index is as before. -/
  k : t.k = s.k
  /-- The responses are as before. -/
  responses : t.responses = s.responses
  /-- The named draws are as before. -/
  draws : t.draws = s.draws
  /-- Reloads are only added. -/
  reloads : s.reloads ≤ t.reloads
  /-- CRC reads are only added. -/
  crcReads : s.crcReads ≤ t.crcReads

theorem State.Keeps.refl (s : State) : s.Keeps s :=
  ⟨rfl, rfl, rfl, rfl, rfl, rfl, rfl, rfl, le_rfl, le_rfl⟩

theorem State.Keeps.trans {s t u : State} (h : s.Keeps t) (h' : t.Keeps u) : s.Keeps u :=
  ⟨h'.t8.trans h.t8, h'.t16.trans h.t16, h'.lz8.trans h.lz8, h'.buf.trans h.buf, h'.program.trans h.program,
    h'.k.trans h.k, h'.responses.trans h.responses, h'.draws.trans h.draws, h.reloads.trans h'.reloads,
    h.crcReads.trans h'.crcReads⟩

theorem State.Keeps.advance (s : State) (n : Nat) : s.Keeps (s.advance n) :=
  ⟨rfl, rfl, rfl, rfl, rfl, rfl, rfl, rfl, Nat.le_succ _, le_rfl⟩

theorem State.Keeps.create (s : State) (q : Nat) : s.Keeps (({ s with init := true }.setPos q).reload) :=
  ⟨rfl, rfl, rfl, rfl, rfl, rfl, rfl, rfl, Nat.le_succ _, le_rfl⟩

theorem State.Keeps.countCrcReads (s : State) (n : Nat) : s.Keeps (s.countCrcReads n) :=
  ⟨rfl, rfl, rfl, rfl, rfl, rfl, rfl, rfl, le_rfl, Nat.le_add_right _ _⟩

theorem State.Keeps.rollBackTo {s t : State} (h : s.Keeps t) : s.Keeps (t.rollBackTo s) :=
  ⟨h.t8, h.t16, h.lz8, h.buf, h.program, h.k, h.responses, h.draws, h.reloads, h.crcReads⟩

theorem readCore_keeps (n : Nat) (s : State) : s.Keeps (readCore n s).2 ∧ (readCore n s).2.init = s.init := by
  rw [readCore]
  split
  · exact ⟨.advance s n, rfl⟩
  · exact ⟨(State.Keeps.advance s 24).trans (.advance _ _), rfl⟩

theorem readChunks_keeps (fuel m : Nat) (x : Long) (s : State) :
    s.Keeps (readChunks fuel m x s).2 ∧ (readChunks fuel m x s).2.init = s.init := by
  induction fuel generalizing m x s with
  | zero => exact ⟨.refl s, rfl⟩
  | succ fuel ih =>
    rw [readChunks]
    split
    · exact ⟨.refl s, rfl⟩
    · have h := readCore_keeps (min 24 m) s
      have h' := ih (m - min 24 m) ((x <<< min 24 m) ||| (readCore (min 24 m) s).1.setWidth 64)
        (readCore (min 24 m) s).2
      exact ⟨h.1.trans h'.1, h'.2.trans h.2⟩

theorem skipZeroBytes_keeps (fuel : Nat) (c : Word) (s : State) :
    s.Keeps (skipZeroBytes fuel c s).2 ∧ (skipZeroBytes fuel c s).2.init = s.init := by
  induction fuel generalizing c s with
  | zero => exact ⟨.refl s, rfl⟩
  | succ fuel ih =>
    rw [skipZeroBytes]
    split
    · exact ⟨(State.Keeps.advance s 8).trans (ih _ _).1, (ih _ _).2⟩
    · exact ⟨.refl s, rfl⟩

theorem readUnary_keeps (s : State) : s.Keeps (readUnary s).2 ∧ (readUnary s).2.init = s.init :=
  let h := skipZeroBytes_keeps (s.buf.len + 1) 0 s
  ⟨h.1.trans (.advance _ _), h.2⟩

theorem readByte_keeps {s t : State} {b : Byte} (h : readByte s = some (b, t)) : s.Keeps t ∧ t.init = s.init := by
  rw [readByte] at h
  split at h
  · cases h
  · cases h
    exact readCore_keeps 8 s

theorem utf8Continue_keeps {w : Nat} (k : Nat) (v : BitVec w) (s : State) :
    s.Keeps (utf8Continue k v s).2 ∧ (utf8Continue k v s).2.init = s.init := by
  induction k generalizing v s with
  | zero => exact ⟨.refl s, rfl⟩
  | succ k ih =>
    rw [utf8Continue]
    cases hb : readByte s with
    | none => exact ⟨.refl s, rfl⟩
    | some ct =>
      obtain ⟨c, t⟩ := ct
      have h := readByte_keeps hb
      dsimp only
      split
      · exact ⟨h.1.trans (ih _ _).1, (ih _ _).2.trans h.2⟩
      · exact h

theorem utf8Decode_keeps (w kMax : Nat) (s : State) :
    s.Keeps (utf8Decode w kMax s).2 ∧ (utf8Decode w kMax s).2.init = s.init := by
  rw [utf8Decode]
  cases hb : readByte s with
  | none => exact ⟨.refl s, rfl⟩
  | some xt =>
    obtain ⟨x, t⟩ := xt
    have h := readByte_keeps hb
    dsimp only
    cases leadByte x with
    | none => exact h
    | some kv =>
      dsimp only
      split
      · exact h
      · have h' := utf8Continue_keeps kv.1 (kv.2.setWidth w) t
        exact ⟨h.1.trans h'.1, h'.2.trans h.2⟩

/-- How a command ends: the state it has reached, and the response it gives there. An error response leaves `init`,
`pos` and `la` as they were (60_exceptions.md R161). -/
structure Ends (s : State) (res : Result) (u : State) (r : Response) : Prop where
  /-- The command answers that state with that response added. -/
  next : res = .next (u.answer r)
  /-- Everything else is as before. -/
  keeps : s.Keeps u
  /-- The response is one the interface allows. -/
  legal : r.legal = true
  /-- An error writes no state. -/
  precise : r.err ≠ 0 → u.init = s.init ∧ u.pos = s.pos ∧ u.la = s.la

theorem Response.error_legal (e : ErrorKind) : (Response.error e).legal = true := by cases e <;> decide

theorem Response.value_legal {w : Nat} (v : BitVec w) : (Response.value v).legal = true := rfl

theorem raise_ends (e : ErrorKind) (s : State) : ∃ u r, Ends s (raise e s) u r :=
  ⟨s, .error e, rfl, .refl s, Response.error_legal e, fun _ => ⟨rfl, rfl, rfl⟩⟩

theorem respond_ends {s u : State} {r : Response} (hk : s.Keeps u) (hr : r.legal = true) (he : r.err = 0) :
    ∃ u' r', Ends s (respond r u) u' r' :=
  ⟨u, r, rfl, hk, hr, fun h => absurd he h⟩

theorem utf8Respond_ends {w kMax : Nat} (cast : BitVec w → BitVec w)
    (hs : (Response.failed (cast (BitVec.allOnes w))).legal = true) (s : State) :
    ∃ u r, Ends s (utf8Respond w kMax cast s) u r := by
  rw [utf8Respond]
  split
  · exact raise_ends _ _
  · have h := utf8Decode_keeps w kMax s
    cases hd : utf8Decode w kMax s with
    | mk e t =>
      rw [hd] at h
      cases e with
      | value v => exact respond_ends h.1 rfl rfl
      | failure => exact respond_ends h.1 hs rfl
      | endOfStream =>
        exact ⟨t.rollBackTo s, .error .endOfStream, rfl, h.1.rollBackTo, Response.error_legal _,
          fun _ => ⟨h.2, rfl, rfl⟩⟩

/-- Every command ends in a next state, with one legal response, and an error response writes no state. -/
theorem exec_ends (i : Instr) (s : State) : ∃ u r, Ends s (exec i s) u r := by
  cases i with
  | init bo =>
    simp only [exec, execInit]
    split
    · exact raise_ends _ _
    split
    · exact raise_ends _ _
    · exact respond_ends (.create s _) rfl rfl
  | seek n =>
    simp only [exec, execSeek]
    split
    · exact raise_ends _ _
    split
    · exact raise_ends _ _
    split
    · exact raise_ends _ _
    · exact respond_ends (.advance s _) rfl rfl
  | flush =>
    simp only [exec, execFlush]
    split
    · exact raise_ends _ _
    split
    · exact respond_ends (.refl s) rfl rfl
    · exact respond_ends (.advance s _) rfl rfl
  | rdbit =>
    simp only [exec, execRdbit]
    split
    · exact raise_ends _ _
    split
    · exact raise_ends _ _
    · exact respond_ends (.advance s 1) rfl rfl
  | rdb n =>
    simp only [exec, execRdb]
    split
    · exact raise_ends _ _
    · exact respond_ends (readCore_keeps n s).1 rfl rfl
  | rdbs n =>
    simp only [exec, execRdbs]
    split
    · exact raise_ends _ _
    · exact respond_ends (readCore_keeps n s).1 rfl rfl
  | rdb64 n =>
    simp only [exec, execRdb64]
    split
    · exact raise_ends _ _
    · exact respond_ends (readChunks_keeps 3 n 0 s).1 rfl rfl
  | rdb64s n =>
    simp only [exec, execRdb64s]
    split
    · exact raise_ends _ _
    · exact respond_ends (readChunks_keeps 3 n 0 s).1 rfl rfl
  | rdun =>
    simp only [exec, execRdun]
    split
    · exact raise_ends _ _
    · exact respond_ends (readUnary_keeps s).1 rfl rfl
  | rduns =>
    simp only [exec, execRduns]
    split
    · exact raise_ends _ _
    · exact respond_ends (readUnary_keeps s).1 rfl rfl
  | rdu8 => exact utf8Respond_ends id rfl s
  | rdu8s => exact utf8Respond_ends signedPattern (by rw [signedPattern_eq]; rfl) s
  | rdu8l => exact utf8Respond_ends id rfl s
  | rdu8ls => exact utf8Respond_ends signedPattern (by rw [signedPattern_eq]; rfl) s
  | getpos =>
    simp only [exec, execGetpos]
    split
    · exact raise_ends _ _
    · exact respond_ends (.refl s) rfl rfl
  | getla =>
    simp only [exec, execGetla]
    split
    · exact raise_ends _ _
    · exact respond_ends (.refl s) rfl rfl
  | crc8 off cnt =>
    simp only [exec, execCrc8]
    split
    · exact raise_ends _ _
    · exact respond_ends (.countCrcReads s cnt) rfl rfl
  | crc16 off cnt =>
    simp only [exec, execCrc16]
    split
    · exact raise_ends _ _
    · exact respond_ends (.countCrcReads s cnt) rfl rfl

/-- What one step can be: the run has ended, or a command that answers. -/
theorem step_ends (s : State) :
    (s.program.length ≤ s.k ∧ step s = .fault .runEnded) ∨
      (s.k < s.program.length ∧ ∃ u r, Ends s (step s) u r) := by
  rw [step, fetch]
  cases hf : s.program[s.k]? with
  | none => exact .inl ⟨by simpa using hf, rfl⟩
  | some c =>
    refine .inr ⟨(List.getElem?_eq_some_iff.1 hf).1, ?_⟩
    cases hd : decode c with
    | ok i => simpa only [hd] using exec_ends i s
    | error e => simpa only [hd] using raise_ends .illegalCommand s

/-- The buffer's form holds at reset. -/
theorem State.reset_buf_wf : State.reset.buf.wf = true := by decide

/-- No command writes the buffer (20_memory.md R47), so every command keeps its form. -/
theorem exec_keeps_buf {i : Instr} {s t : State} (h : exec i s = .next t) : t.buf = s.buf := by
  obtain ⟨u, r, he⟩ := exec_ends i s
  cases (he.next.symm.trans h : Host.Outcome.next _ = _)
  exact he.keeps.buf

/-- No step writes the buffer, so every step keeps its form. -/
theorem step_keeps_buf {s t : State} (h : step s = .next t) : t.buf = s.buf := by
  obtain ⟨-, hf⟩ | ⟨-, u, r, he⟩ := step_ends s
  · rw [hf] at h
    cases h
  · cases (he.next.symm.trans h : Host.Outcome.next _ = _)
    exact he.keeps.buf

end Sys2Proof.Machine
end

