-- ==== Sys2Proof/Laws/PerInstr.lean ====
section
/-! SUPPORT. The per-instruction family TableRow: the word the encoder writes for an instruction belongs to the
instruction's own row of the opcode table and to no other (30_encoding.md R64). -/

namespace Sys2Proof.Laws.TableRow

/-- Among the rows of the opcode table, exactly the one with the instruction's mnemonic takes the command word of
the well-formed instruction. -/
def Statement (i : Instr) : Prop :=
  (∃ r ∈ opcodeTable, r.mnemonic = i.mnemonic) ∧
  (i.wellFormed = true → ∀ r ∈ opcodeTable, (r.selects (encode i).cw = true ↔ r.mnemonic = i.mnemonic))

/-- A constant command word is checked against the table row by row. -/
theorem ofWord {i : Instr} (cw : Word) (m : String) (h : (encode i).cw = cw) (hm : i.mnemonic = m)
    (hrow : (opcodeTable.any fun r => r.mnemonic == m) = true)
    (hall : (opcodeTable.all fun r => r.selects cw == (r.mnemonic == m)) = true) : Statement i := by
  subst hm h
  refine ⟨?_, fun _ r hr => ?_⟩
  · obtain ⟨r, hr, hm⟩ := List.any_eq_true.mp hrow
    exact ⟨r, hr, by simpa using hm⟩
  · have := List.all_eq_true.mp hall r hr
    rw [beq_iff_eq] at this
    rw [this, beq_iff_eq]

/-- A word with a width field is checked against the table row by row for every width the field admits. -/
theorem ofWidth {i : Instr} (n : Nat) (op : Byte) (m : String)
    (h : (encode i).cw = commandWord op (BitVec.ofNat 8 n)) (hm : i.mnemonic = m)
    (hrow : (opcodeTable.any fun r => r.mnemonic == m) = true)
    (hall : ∀ v : Fin 256,
      (opcodeTable.all fun r => r.selects (commandWord op (BitVec.ofNat 8 v)) == (r.mnemonic == m)) = true) :
    Statement i := by
  refine ofWord _ m h hm hrow ?_
  have := hall ⟨n % 256, Nat.mod_lt _ (by decide)⟩
  rwa [show BitVec.ofNat 8 (n % 256) = BitVec.ofNat 8 n from by simp [← BitVec.toNat_inj]] at this

theorem init (bo : Int) : Statement (.init bo) := ofWord (commandWord 0x01 0) "INIT" rfl rfl rfl rfl
theorem seek (n : Int) : Statement (.seek n) := ofWord (commandWord 0x02 0) "SEEK" rfl rfl rfl rfl
theorem flush : Statement .flush := ofWord (commandWord 0x03 0) "FLUSH" rfl rfl rfl rfl
theorem rdbit : Statement .rdbit := ofWord (commandWord 0x04 0) "RDBIT" rfl rfl rfl rfl
theorem rdb (n : Nat) : Statement (.rdb n) :=
  ofWidth n 0x05 "RDB" rfl rfl rfl (by decide +kernel)
theorem rdbs (n : Nat) : Statement (.rdbs n) :=
  ofWidth n 0x06 "RDBS" rfl rfl rfl (by decide +kernel)
theorem rdb64 (n : Nat) : Statement (.rdb64 n) :=
  ofWidth n 0x07 "RDB64" rfl rfl rfl (by decide +kernel)
theorem rdb64s (n : Nat) : Statement (.rdb64s n) :=
  ofWidth n 0x08 "RDB64S" rfl rfl rfl (by decide +kernel)
theorem rdun : Statement .rdun := ofWord (commandWord 0x09 0) "RDUN" rfl rfl rfl rfl
theorem rduns : Statement .rduns := ofWord (commandWord 0x0A 0) "RDUNS" rfl rfl rfl rfl
theorem rdu8 : Statement .rdu8 := ofWord (commandWord 0x0B 0) "RDU8" rfl rfl rfl rfl
theorem rdu8s : Statement .rdu8s := ofWord (commandWord 0x0C 0) "RDU8S" rfl rfl rfl rfl
theorem rdu8l : Statement .rdu8l := ofWord (commandWord 0x0D 0) "RDU8L" rfl rfl rfl rfl
theorem rdu8ls : Statement .rdu8ls := ofWord (commandWord 0x0E 0) "RDU8LS" rfl rfl rfl rfl
theorem getpos : Statement .getpos := ofWord (commandWord 0x0F 0) "GETPOS" rfl rfl rfl rfl
theorem getla : Statement .getla := ofWord (commandWord 0x10 0) "GETLA" rfl rfl rfl rfl
theorem crc8 (off cnt : Nat) : Statement (.crc8 off cnt) := ofWord (commandWord 0x20 0) "CRC8" rfl rfl rfl rfl
theorem crc16 (off cnt : Nat) : Statement (.crc16 off cnt) := ofWord (commandWord 0x21 0) "CRC16" rfl rfl rfl rfl

end Sys2Proof.Laws.TableRow
end

