-- ==== Sys2Proof/Tests/Slice0.lean ====
section
/-! SUPPORT. The model's own tests: ill-formed terms refused, every constructor's word decoded, the printed tables,
single commands on small states with the results of spec/95_test_vectors.md, and for every obligation with
hypotheses a witness that meets them. -/

namespace Sys2Proof.Tests

set_option Elab.async false

open Sys2Proof.Machine

/-! ## Helpers -/

/-- A state with a cursor at bit `q` of the bytes, as INIT leaves it, with these draws and this command list. -/
def atBitOf (ds : List Byte) (cs : List Command) (bs : List Byte) (q : Nat) : State :=
  { State.launch (Memory.ofBytes bs) cs ds with
    init := true, pos := BitVec.ofNat 32 q, la := (Memory.ofBytes bs).reload ds 0 q, reloads := 1 }

/-- The same with 64 draws and no command listed. -/
def atBit (bs : List Byte) (q : Nat) : State := atBitOf (List.replicate 64 0xEE) [] bs q

/-- A state without a cursor over the bytes, with a command list. -/
def noCursor (bs : List Byte) (cs : List Command) : State :=
  State.launch (Memory.ofBytes bs) cs (List.replicate 64 0xEE)

/-- The state a command leads to. -/
def after (i : Instr) (s : State) : State :=
  match exec i s with
  | .next t => t
  | .fault _ | .refused _ => s

/-- The response of a command. -/
def answerOf (i : Instr) (s : State) : Response := (after i s).responses.getLast?.getD (.error .illegalCommand)

/-- The response of a command, `pos` after it, and whether `la` is as before. -/
def outcome (i : Instr) (s : State) : Response × Nat × Bool :=
  (answerOf i s, (after i s).pos.toNat, (after i s).la == s.la)

/-- A success with this `DATA`. -/
def ok (v : Long) : Response := ⟨0, true, v⟩

/-- The buffer `A` of spec/95_test_vectors.md. -/
def bytesA : List Byte := [0xA5, 0x3C, 0x0F, 0xF0, 0x12, 0x34, 0x56, 0x78, 0x9A, 0xBC]

/-- A command moves to the state `after` names and adds the response `answerOf` names. -/
theorem exec_after (i : Instr) (s : State) :
    exec i s = .next (after i s) ∧ (after i s).responses = s.responses ++ [answerOf i s] := by
  obtain ⟨u, r, h⟩ := exec_ends i s
  have ha : after i s = u.answer r := by simp [after, h.next]
  have hr : (u.answer r).responses = s.responses ++ [r] := by
    rw [show (u.answer r).responses = u.responses ++ [r] from rfl, h.keeps.responses]
  refine ⟨by rw [h.next, ha], ?_⟩
  rw [answerOf, ha, hr]
  simp

theorem atBitOf_sound (ds : List Byte) (cs : List Command) (bs : List Byte) (q : Nat) (hl : bs.length ≤ 2 ^ 28)
    (hq : q ≤ 8 * bs.length) : (atBitOf ds cs bs q).Sound where
  bufWf := Memory.ofBytes_wf bs hl
  t8 := rfl
  t16 := rfl
  lz8 := rfl
  posLe _ := by
    change (BitVec.ofNat 32 q).toNat ≤ 8 * bs.length
    rw [BitVec.toNat_ofNat]
    omega
  lookahead _ := ⟨0, Nat.zero_lt_one, by
    change (Memory.ofBytes bs).reload _ 0 q = (Memory.ofBytes bs).reload _ 0 (BitVec.ofNat 32 q).toNat
    rw [BitVec.toNat_ofNat, Nat.mod_eq_of_lt (by omega)]
    rfl⟩

theorem atBit_sound (bs : List Byte) (q : Nat) (hl : bs.length ≤ 2 ^ 28) (hq : q ≤ 8 * bs.length) :
    (atBit bs q).Sound := atBitOf_sound _ _ bs q hl hq

theorem soundA (q : Nat) (hq : q ≤ 80) : (atBit bytesA q).Sound := atBit_sound bytesA q (by decide) hq

theorem noCursor_sound (bs : List Byte) (cs : List Command) (hl : bs.length ≤ 2 ^ 28) : (noCursor bs cs).Sound where
  bufWf := Memory.ofBytes_wf bs hl
  t8 := rfl
  t16 := rfl
  lz8 := rfl
  posLe h := Bool.noConfusion h
  lookahead h := Bool.noConfusion h

theorem noCursor_inv (bs : List Byte) (cs : List Command) (hl : bs.length ≤ 2 ^ 28) : (noCursor bs cs).Inv where
  sound := noCursor_sound bs cs hl
  inStep := ⟨rfl, Nat.zero_le _, fun _ h => nomatch h⟩

/-! ## Well-formedness: each check refuses an ill-formed term -/

theorem test_illformed_terms_are_refused :
    Instr.wellFormed (.init (-0x80000001)) = false ∧ Instr.wellFormed (.init 0x80000000) = false ∧
    Instr.wellFormed (.seek (-0x80000001)) = false ∧ Instr.wellFormed (.seek 0x80000000) = false ∧
    Instr.wellFormed (.rdb 256) = false ∧ Instr.wellFormed (.rdbs 256) = false ∧
    Instr.wellFormed (.rdb64 256) = false ∧ Instr.wellFormed (.rdb64s 256) = false ∧
    Instr.wellFormed (.crc8 0x100000000 0) = false ∧ Instr.wellFormed (.crc8 0 0x100000000) = false ∧
    Instr.wellFormed (.crc16 0x100000000 0) = false ∧ Instr.wellFormed (.crc16 0 0x100000000) = false := by decide

theorem test_wellformed_terms_are_accepted :
    Instr.wellFormed (.init (-0x80000000)) = true ∧ Instr.wellFormed (.seek 0x7FFFFFFF) = true ∧
    Instr.wellFormed (.rdb 255) = true ∧ Instr.wellFormed (.crc16 0xFFFFFFFF 0xFFFFFFFF) = true ∧
    Instr.wellFormed .rdun = true := by decide

/-! ## Decoding: the words of 30_encoding.md R64, R65 and R69 -/

/-- Every constructor, from the command word of 30_encoding.md R64 (`nn` is the width). -/
theorem test_decode_positioning_and_status :
    decode ⟨0x00000001, 0xFFFFFFFF, 7⟩ = .ok (.init (-1)) ∧ decode ⟨0x00000002, 0x0000000C, 7⟩ = .ok (.seek 12) ∧
    decode ⟨0x00000003, 1, 2⟩ = .ok .flush ∧ decode ⟨0x0000000F, 1, 2⟩ = .ok .getpos ∧
    decode ⟨0x00000010, 1, 2⟩ = .ok .getla := by decide

theorem test_decode_reads :
    decode ⟨0x00000004, 1, 2⟩ = .ok .rdbit ∧ decode ⟨0x00001F05, 1, 2⟩ = .ok (.rdb 31) ∧
    decode ⟨0x0000FF06, 1, 2⟩ = .ok (.rdbs 255) ∧ decode ⟨0x00003107, 1, 2⟩ = .ok (.rdb64 49) ∧
    decode ⟨0x00004008, 1, 2⟩ = .ok (.rdb64s 64) ∧ decode ⟨0x00000009, 1, 2⟩ = .ok .rdun ∧
    decode ⟨0x0000000A, 1, 2⟩ = .ok .rduns ∧ decode ⟨0x0000000B, 1, 2⟩ = .ok .rdu8 ∧
    decode ⟨0x0000000C, 1, 2⟩ = .ok .rdu8s ∧ decode ⟨0x0000000D, 1, 2⟩ = .ok .rdu8l ∧
    decode ⟨0x0000000E, 1, 2⟩ = .ok .rdu8ls := by decide

theorem test_decode_checksums :
    decode ⟨0x00000020, 0xFFFFFFFF, 9⟩ = .ok (.crc8 0xFFFFFFFF 9) ∧
    decode ⟨0x00000021, 2, 0x80000000⟩ = .ok (.crc16 2 0x80000000) := by decide

/-- The illegal words of 30_encoding.md R65 and R69 and spec/95_test_vectors.md 2.7. -/
theorem test_illegal_words_are_refused :
    decode ⟨0x00000000, 0, 0⟩ = .error (.reservedOpcode 0x00) ∧ decode ⟨0x00000011, 0, 0⟩ = .error (.reservedOpcode 0x11) ∧
    decode ⟨0x00000022, 0, 0⟩ = .error (.reservedOpcode 0x22) ∧ decode ⟨0x00010005, 0, 0⟩ = .error .reservedBits ∧
    decode ⟨0x80000001, 0, 0⟩ = .error .reservedBits ∧ decode ⟨0x00000109, 0, 0⟩ = .error .widthOnPlainCommand ∧
    decode ⟨0x00000103, 0, 0⟩ = .error .widthOnPlainCommand := by decide

/-- The assembler's lines of 30_encoding.md R69. -/
theorem test_assembler_lines :
    assemble "RDB" [5] = some ⟨0x00000505, 0, 0⟩ ∧ assemble "RDB64S" [64] = some ⟨0x00004008, 0, 0⟩ ∧
    assemble "SEEK" [-3] = some ⟨0x00000002, 0xFFFFFFFD, 0⟩ ∧ assemble "CRC16" [2, 7] = some ⟨0x00000021, 2, 7⟩ ∧
    assemble "RDB" [256] = none ∧ assemble "FLUSH" [1] = none := by decide

/-! ## The constant tables -/

/-- Consecutive entries, packed `n` to a number, the first one highest. -/
def packed {w : Nat} (n : Nat) (l : List (BitVec w)) : Nat → List Nat
  | 0 => []
  | k + 1 => (l.take n).foldl (fun a b => a * 2 ^ w + b.toNat) 0 :: packed n (l.drop n) k

/-- The table of 42_crc.md R142, one row of 16 entries to a number. -/
theorem test_T8_is_the_printed_table : packed 16 State.reset.t8.toList 16 =
  [0x00070E091C1B1215383F363124232A2D, 0x70777E796C6B6265484F464154535A5D,
   0xE0E7EEE9FCFBF2F5D8DFD6D1C4C3CACD, 0x90979E998C8B8285A8AFA6A1B4B3BABD,
   0xC7C0C9CEDBDCD5D2FFF8F1F6E3E4EDEA, 0xB7B0B9BEABACA5A28F88818693949D9A,
   0x2720292E3B3C35321F18111603040D0A, 0x5750595E4B4C45426F68616673747D7A] ++
  [0x898E878095929B9CB1B6BFB8ADAAA3A4, 0xF9FEF7F0E5E2EBECC1C6CFC8DDDAD3D4,
   0x696E676075727B7C51565F584D4A4344, 0x191E171005020B0C21262F283D3A3334,
   0x4E49404752555C5B7671787F6A6D6463, 0x3E39303722252C2B0601080F1A1D1413,
   0xAEA9A0A7B2B5BCBB9691989F8A8D8483, 0xDED9D0D7C2C5CCCBE6E1E8EFFAFDF4F3] := by
  decide +kernel

/-- The table of 42_crc.md R143, one row of 8 entries to a number. -/
theorem test_T16_is_the_printed_table : packed 8 State.reset.t16.toList 32 =
  [0x00008005800F000A801B001E00148011, 0x80330036003C80390028802D80270022,
   0x80630066006C80690078807D80770072, 0x00508055805F005A804B004E00448041,
   0x80C300C600CC80C900D880DD80D700D2, 0x00F080F580FF00FA80EB00EE00E480E1,
   0x00A080A580AF00AA80BB00BE00B480B1, 0x80930096009C80990088808D80870082] ++
  [0x81830186018C81890198819D81970192, 0x01B081B581BF01BA81AB01AE01A481A1,
   0x01E081E581EF01EA81FB01FE01F481F1, 0x81D301D601DC81D901C881CD81C701C2,
   0x01408145814F014A815B015E01548151, 0x81730176017C81790168816D81670162,
   0x81230126012C81290138813D81370132, 0x01108115811F011A810B010E01048101] ++
  [0x83030306030C83090318831D83170312, 0x03308335833F033A832B032E03248321,
   0x03608365836F036A837B037E03748371, 0x83530356035C83590348834D83470342,
   0x03C083C583CF03CA83DB03DE03D483D1, 0x83F303F603FC83F903E883ED83E703E2,
   0x83A303A603AC83A903B883BD83B703B2, 0x03908395839F039A838B038E03848381] ++
  [0x02808285828F028A829B029E02948291, 0x82B302B602BC82B902A882AD82A702A2,
   0x82E302E602EC82E902F882FD82F702F2, 0x02D082D582DF02DA82CB02CE02C482C1,
   0x82430246024C82490258825D82570252, 0x02708275827F027A826B026E02648261,
   0x02208225822F022A823B023E02348231, 0x82130216021C82190208820D82070202] := by
  decide +kernel

/-- The table of 41_cursor_varlen.md R110 at the ends of its ranges. -/
theorem test_LZ8_at_the_ends_of_its_ranges :
    [0x00, 0x01, 0x02, 0x03, 0x04, 0x07, 0x08, 0x0F, 0x10, 0x1F, 0x20, 0x3F, 0x40, 0x7F, 0x80, 0xFF].map
      (fun v => (tableAt State.reset.lz8 v).toNat) = [8, 7, 6, 6, 5, 5, 4, 4, 3, 3, 2, 2, 1, 1, 0, 0] := by
  decide +kernel

/-! ## Single commands: the vectors of spec/95_test_vectors.md section 2 -/

/-- Section 2.1. -/
theorem test_init :
    outcome (.init 5) (noCursor bytesA []) = (ok 0, 5, false) ∧ (after (.init 5) (noCursor bytesA [])).la = 0xA781FE00 ∧
    outcome (.init 81) (noCursor bytesA []) = (.error .invalidArgument, 0, true) ∧
    outcome (.init 80) (noCursor bytesA []) = (ok 0, 80, false) := by decide +kernel

theorem test_seek :
    outcome (.seek 12) (atBit bytesA 0) = (ok 0, 12, false) ∧ (after (.seek 12) (atBit bytesA 0)).la = 0xC0FF0120 ∧
    outcome (.seek 45) (atBit bytesA 36) = (.error .endOfStream, 36, true) ∧
    outcome (.seek (-1)) (atBit bytesA 36) = (.error .outOfRange, 36, true) := by decide +kernel

theorem test_flush :
    outcome .flush (atBit bytesA 12) = (ok 0, 16, false) ∧ (after .flush (atBit bytesA 12)).la = 0x0FF01234 ∧
    outcome .flush (atBit bytesA 80) = (ok 0, 80, true) ∧ (after .flush (atBit bytesA 80)).reloads = 1 := by
  decide +kernel

/-- Section 2.2. -/
theorem test_rdbit :
    outcome .rdbit (atBit bytesA 8) = (ok 0, 9, false) ∧ (after .rdbit (atBit bytesA 8)).la = 0x781FE024 ∧
    outcome .rdbit (atBit bytesA 79) = (ok 0, 80, false) := by decide +kernel

theorem test_rdb :
    outcome (.rdb 32) (atBit bytesA 33) = (ok 0x2468ACF1, 65, false) ∧
    outcome (.rdb 25) (atBit bytesA 7) = (ok 0x013C0FF0, 32, false) ∧
    outcome (.rdb 33) (atBit bytesA 9) = (.error .outOfRange, 9, true) ∧
    outcome (.rdb 2) (atBit bytesA 79) = (.error .endOfStream, 79, true) := by decide +kernel

theorem test_rdbs :
    outcome (.rdbs 4) (atBit bytesA 0) = (ok 0xFFFFFFFA, 4, false) ∧
    outcome (.rdbs 28) (atBit bytesA 2) = (ok 0xF94F03FC, 30, false) ∧
    outcome (.rdbs 32) (atBit [0x7F, 0xFF, 0xFF, 0xFF] 0) = (ok 0x7FFFFFFF, 32, false) := by decide +kernel

/-- Section 2.3. -/
theorem test_rdb64 :
    outcome (.rdb64 64) (atBit bytesA 4) = (ok 0x53C0FF0123456789, 68, false) ∧
    outcome (.rdb64 49) (atBit bytesA 7) = (ok 0x00013C0FF0123456, 56, false) ∧
    (after (.rdb64 64) (atBit bytesA 4)).reloads = 1 + 3 := by decide +kernel

theorem test_rdb64s :
    outcome (.rdb64s 36) (atBit bytesA 0) = (ok 0xFFFFFFFA53C0FF01, 36, false) ∧
    outcome (.rdb64s 64) (atBit bytesA 0) = (ok 0xA53C0FF012345678, 64, false) ∧
    outcome (.rdb64s 65) (atBit bytesA 0) = (.error .outOfRange, 0, true) := by decide +kernel

/-- Section 2.4. -/
theorem test_rdun :
    outcome .rdun (atBit [0x00, 0x10] 3) = (ok 8, 12, false) ∧
    outcome .rdun (atBit [0x01] 7) = (ok 0, 8, false) ∧
    outcome .rdun (atBit [0x01] 8) = (.error .endOfStream, 8, true) := by decide +kernel

theorem test_rduns :
    outcome .rduns (atBit [0x08] 0) = (ok 2, 5, false) ∧
    outcome .rduns (atBit [0x10] 0) = (ok 0xFFFFFFFE, 4, false) ∧
    outcome .rduns (atBit (List.replicate 12 0x00 ++ [0x04]) 0) = (ok 0xFFFFFFCD, 102, false) := by decide +kernel

/-- Section 2.5. -/
theorem test_rdu8 :
    outcome .rdu8 (atBit [0xFD, 0xBF, 0xBF, 0xBF, 0xBF, 0xBF] 0) = (ok 0x7FFFFFFF, 48, false) ∧
    outcome .rdu8 (atBit [0xC2, 0x41, 0x00] 0) = (⟨0, false, 0xFFFFFFFF⟩, 16, false) ∧
    outcome .rdu8 (atBit [0xFE, 0xBF, 0xBF, 0xBF, 0xBF, 0xBF, 0xBF] 0) = (⟨0, false, 0xFFFFFFFF⟩, 8, false) ∧
    outcome .rdu8 (atBit [0xE0, 0x80] 0) = (.error .endOfStream, 0, true) := by decide +kernel

theorem test_rdu8s :
    outcome .rdu8s (atBit [0x7F] 0) = (ok 0x7F, 8, false) ∧
    outcome .rdu8s (atBit [0xFF] 0) = (⟨0, false, 0xFFFFFFFF⟩, 8, false) := by decide +kernel

theorem test_rdu8l :
    outcome .rdu8l (atBit [0xFE, 0x82, 0x80, 0x80, 0x80, 0x80, 0x80] 0) = (ok 0x80000000, 56, false) ∧
    outcome .rdu8l (atBit [0x61, 0x00] 4) = (ok 0x10, 12, false) ∧
    outcome .rdu8l (atBit [0xC2] 0) = (.error .endOfStream, 0, true) := by decide +kernel

theorem test_rdu8ls :
    outcome .rdu8ls (atBit [0xC2, 0x80] 0) = (ok 0x80, 16, false) ∧
    outcome .rdu8ls (atBit [0xE0, 0x80, 0x7F] 0) = (⟨0, false, 0xFFFFFFFFFFFFFFFF⟩, 24, false) := by decide +kernel

/-- 40_cursor_fixed.md R96, R97, with the lookahead of section 2.1. -/
theorem test_getpos : outcome .getpos (atBit bytesA 12) = (ok 12, 12, true) := by decide +kernel

theorem test_getla : outcome .getla (atBit bytesA 12) = (ok 0xC0FF0120, 12, true) := by decide +kernel

/-- Section 2.6. -/
theorem test_crc8 :
    (outcome (.crc8 0 9) (noCursor [0x31, 0x32, 0x33, 0x34, 0x35, 0x36, 0x37, 0x38, 0x39] [])).1 = ok 0xF4 ∧
    (outcome (.crc8 1 5) (noCursor [0x00, 0xFF, 0xF8, 0xC9, 0x18, 0x00] [])).1 = ok 0xC2 ∧
    (outcome (.crc8 0 7) (noCursor [1, 2, 3, 4, 5, 6] [])).1 = .error .outOfRange ∧
    (outcome (.crc8 6 0) (noCursor [1, 2, 3, 4, 5, 6] [])).1 = ok 0 := by decide +kernel

theorem test_crc16 :
    (outcome (.crc16 0 9) (noCursor [0x31, 0x32, 0x33, 0x34, 0x35, 0x36, 0x37, 0x38, 0x39] [])).1 = ok 0xFEE8 ∧
    (outcome (.crc16 1 4) (noCursor [0x00, 0x01, 0x02, 0x03, 0x04] [])).1 = ok 0x9E33 ∧
    (outcome (.crc16 7 0) (noCursor [1, 2, 3, 4, 5, 6] [])).1 = .error .outOfRange := by decide +kernel

/-- Section 2.7: a step on a placed word. -/
theorem test_step_on_placed_words :
    (match step (State.reset.withFetchWord 32 0x00000005) with
      | .next t => t.responses | .fault _ | .refused _ => []) = [.error .notInitialised] ∧
    (match step (State.reset.withFetchWord 32 0x00000109) with
      | .next t => t.responses | .fault _ | .refused _ => []) = [.error .illegalCommand] := by decide +kernel

/-! ## Witnesses: for every obligation with hypotheses, states and operands that meet them, clause by clause -/

/-! ### Commands and their encoding -/

theorem test_witness_StepRunsTheDecodedCommand :
    (noCursor bytesA [⟨0x00000505, 0, 0⟩]).program[(noCursor bytesA [⟨0x00000505, 0, 0⟩]).k]? =
      some ⟨0x00000505, 0, 0⟩ ∧ decode ⟨0x00000505, 0, 0⟩ = .ok (.rdb 5) := by decide

theorem test_witness_IllegalWordRaisesIllegalCommand :
    ∀ cw ∈ ([0x00, 0x11, 0x1F, 0x22, 0xFF, 0x00010005, 0xFFFF0001, 0x00000104, 0x0000FF21] : List Word),
      (noCursor [] [⟨cw, 0, 0⟩]).program[(noCursor [] [⟨cw, 0, 0⟩]).k]? = some ⟨cw, 0, 0⟩ ∧
      ((cw.toNat % 2 ^ 8 = 0x00 ∨ (0x11 ≤ cw.toNat % 2 ^ 8 ∧ cw.toNat % 2 ^ 8 ≤ 0x1F) ∨ 0x22 ≤ cw.toNat % 2 ^ 8) ∨
        cw.toNat / 2 ^ 16 ≠ 0 ∨
        (cw.toNat / 2 ^ 8 % 2 ^ 8 ≠ 0 ∧ cw.toNat % 2 ^ 8 ∉ [0x05, 0x06, 0x07, 0x08])) := by
  simp [noCursor, State.launch, State.reset, State.afterReset]

theorem test_witness_WordDecodesExactlyByItsTableRow :
    decode ⟨0x0000FF05, 0, 0⟩ = .ok (.rdb 255) ∧ ∃ r ∈ opcodeTable, r.selects 0x0000FF05 = true := by decide +kernel

theorem test_witness_DecodeOfEncodeIsTheInstruction :
    ∀ i ∈ ([.init (-0x80000000), .init 0x7FFFFFFF, .rdb 0, .rdb64s 255, .rdun, .crc8 0xFFFFFFFF 0] : List Instr),
      i.wellFormed = true := by decide

theorem test_witness_EncodeOfDecodeIsTheCommand :
    decode ⟨0x00000020, 0xFFFFFFFF, 0x80000000⟩ = .ok (.crc8 0xFFFFFFFF 0x80000000) ∧
    Instr.usesArg0 (.crc8 0xFFFFFFFF 0x80000000) = true ∧ Instr.usesArg1 (.crc8 0xFFFFFFFF 0x80000000) = true := by
  decide

theorem test_witness_UnusedOperandWordsAreIgnored :
    decode ⟨0x00000003, 0, 0⟩ = .ok .flush ∧ (⟨0x00000003, 1, 2⟩ : Command).cw = 0x00000003 ∧
    Instr.usesArg0 .flush = false ∧ Instr.usesArg1 .flush = false ∧
    decode ⟨0x00000001, 5, 0⟩ = .ok (.init 5) ∧ Instr.usesArg1 (.init 5) = false := by decide

theorem test_witness_AssemblerAgreesWithTheEncoder :
    Instr.wellFormed (.crc16 0xFFFFFFFF 0) = true ∧ Instr.wellFormed (.seek (-0x80000000)) = true := by decide

theorem test_witness_AssemblerRefusesWhatDoesNotFit :
    (255 : Int) < 256 ∧ (-0x80000001 : Int) < -0x80000000 ∧ (0x100000000 : Int) ≤ 0x100000000 := by decide

theorem test_witness_PlacedWordIsTheNextStep :
    decodeTableWord 32 0x00000505 = some (.rdb 5) ∧ decodeTableWord 96 0x000000070000000200000021 = some (.crc16 2 7) ∧
    decodeTableWord 32 0x00010005 = none := by decide

theorem test_witness_ErrorPriorityExamples :
    (atBit bytesA 80).init = true ∧ (atBit bytesA 80).pos.toNat = 8 * (atBit bytesA 80).buf.len ∧
    (noCursor bytesA []).init = false ∧
    (noCursor [] [⟨0x00000109, 0, 0⟩]).program[(noCursor [] [⟨0x00000109, 0, 0⟩]).k]? = some ⟨0x00000109, 0, 0⟩ := by
  decide +kernel

/-! ### Reset, runs and the invariant -/

theorem test_witness_ResetMeetsTheInvariant : (Memory.ofBytes bytesA).wf = true := by decide

theorem test_witness_EveryStepKeepsTheInvariant :
    (∃ s t : State, s.Inv ∧ s.init = false ∧ step s = .next t) ∧
    (∃ s t : State, s.Inv ∧ s.init = true ∧ s.pos.toNat = 75 ∧ step s = .next t) := by
  have hn (s : State) (h : s.k < s.program.length) : ∃ t, step s = .next t := by
    obtain ⟨h', -⟩ | ⟨-, u, r, he⟩ := step_ends s
    · omega
    · exact ⟨_, he.next⟩
  obtain ⟨t, ht⟩ := hn (noCursor bytesA [⟨0x00000001, 0, 0⟩]) (by decide)
  obtain ⟨u, hu⟩ := hn (atBitOf [] [⟨0x00000505, 0, 0⟩] bytesA 75) (by decide)
  exact ⟨⟨_, t, noCursor_inv _ _ (by decide), rfl, ht⟩,
    ⟨_, u, ⟨atBitOf_sound _ _ _ _ (by decide) (by decide), ⟨rfl, Nat.zero_le _, fun _ h => nomatch h⟩⟩, rfl, rfl, hu⟩⟩

theorem test_witness_OnlyAnEndedRunStops :
    (noCursor [] [⟨0, 0, 0⟩]).k < (noCursor [] [⟨0, 0, 0⟩]).program.length ∧
    State.reset.program.length ≤ State.reset.k := by decide

theorem test_witness_ResetDiscardsTheCursor : Instr.isCursor .getla = true ∧ Instr.isInit .getla = false := by decide

theorem test_witness_ResetValuesCannotBeObserved :
    (∃ t, (noCursor bytesA []).init = false ∧ exec (.init 80) (noCursor bytesA []) = .next t ∧ t.init = true) ∧
    (∃ t, (noCursor bytesA []).init = false ∧ exec .flush (noCursor bytesA []) = .next t ∧ t.init = false) :=
  ⟨⟨_, rfl, (exec_after _ _).1, by decide +kernel⟩, ⟨_, rfl, (exec_after _ _).1, by decide +kernel⟩⟩

/-! ### What every command does and leaves -/

theorem test_witness_ErrorsWriteNoState :
    (∃ t r, exec (.rdb 0) (atBit bytesA 9) = .next t ∧ t.responses = (atBit bytesA 9).responses ++ [r] ∧ r.err ≠ 0) ∧
    (∃ t r, exec .rdu8 (atBit [0xE0, 0x80] 0) = .next t ∧
      t.responses = (atBit [0xE0, 0x80] 0).responses ++ [r] ∧ r.err ≠ 0) :=
  ⟨⟨_, _, (exec_after _ _).1, (exec_after _ _).2, by decide +kernel⟩,
   ⟨_, _, (exec_after _ _).1, (exec_after _ _).2, by decide +kernel⟩⟩

theorem test_witness_ResponsesStayWithinTheInterface :
    ∃ t r, exec .rdu8 (atBit [0xFF] 0) = .next t ∧ t.responses = (atBit [0xFF] 0).responses ++ [r] ∧
      r.err = 0 ∧ r.valid = false :=
  ⟨_, _, (exec_after _ _).1, (exec_after _ _).2, by decide +kernel, by decide +kernel⟩

theorem test_witness_InitBitIsSetOnlyByInit :
    (∃ t r, exec (.init 80) (noCursor bytesA []) = .next t ∧ t.responses = (noCursor bytesA []).responses ++ [r] ∧
      r.err = 0) ∧
    (∃ t r, exec (.init 81) (noCursor bytesA []) = .next t ∧ t.responses = (noCursor bytesA []).responses ++ [r] ∧
      r.err ≠ 0) ∧
    (∃ t, Instr.isInit .rdun = false ∧ exec .rdun (atBit bytesA 3) = .next t) ∧
    (Instr.isCursor .getla = true ∧ Instr.isInit .getla = false ∧ (noCursor bytesA []).init = false) ∧
    (∃ t, Instr.isCursor (.crc8 0 10) = false ∧ exec (.crc8 0 10) (noCursor bytesA []) = .next t) :=
  ⟨⟨_, _, (exec_after _ _).1, (exec_after _ _).2, by decide +kernel⟩,
   ⟨_, _, (exec_after _ _).1, (exec_after _ _).2, by decide +kernel⟩,
   ⟨_, rfl, (exec_after _ _).1⟩, ⟨rfl, rfl, rfl⟩, ⟨_, rfl, (exec_after _ _).1⟩⟩

theorem test_witness_PositionIsMonotoneAndInRange :
    (∃ t r, (atBit bytesA 75).Sound ∧ exec (.rdb 5) (atBit bytesA 75) = .next t ∧
      t.responses = (atBit bytesA 75).responses ++ [r] ∧ Instr.isInit (.rdb 5) = false ∧
      Instr.consumes (.rdb 5) = true ∧ r.err = 0 ∧ t.init = true) ∧
    (∃ t r, (atBit bytesA 75).Sound ∧ exec (.rdb 6) (atBit bytesA 75) = .next t ∧
      t.responses = (atBit bytesA 75).responses ++ [r] ∧ r.err ≠ 0) :=
  ⟨⟨_, _, soundA 75 (by decide), (exec_after _ _).1, (exec_after _ _).2, rfl, rfl, by decide +kernel,
     by decide +kernel⟩,
   ⟨_, _, soundA 75 (by decide), (exec_after _ _).1, (exec_after _ _).2, by decide +kernel⟩⟩

theorem test_witness_StatusAndChecksumLeaveTheCursor :
    (∃ t, exec .getla (atBit bytesA 3) = .next t) ∧
    (∃ t, exec (.crc16 0 10) (atBit bytesA 3) = .next t ∧ Instr.isCursor (.crc16 0 10) = false) ∧
    (∃ t, exec .rdun (atBit bytesA 3) = .next t ∧ Instr.isCursor .rdun = true) :=
  ⟨⟨_, (exec_after _ _).1⟩, ⟨_, (exec_after _ _).1, rfl⟩, ⟨_, (exec_after _ _).1, rfl⟩⟩

theorem test_witness_PortReadsAreBounded :
    ∃ t, (atBit bytesA 4).Sound ∧ exec (.rdb64 64) (atBit bytesA 4) = .next t ∧ t.reloads = (atBit bytesA 4).reloads + 3 :=
  ⟨_, soundA 4 (by decide), (exec_after _ _).1, by decide +kernel⟩

theorem test_witness_ChecksumAndCursorCommandsCommute :
    Instr.isCursor (.crc8 0 10) = false ∧ Instr.isCursor .rdu8 = true := by decide

theorem test_witness_DrawsNeverReachAnAnswer :
    ∃ t t' r r', (atBit bytesA 75).Sound ∧ (atBitOf (List.replicate 64 0x11) [] bytesA 75).Sound ∧
      Instr.rdb 5 ≠ .getla ∧ (atBit bytesA 75).buf = (atBitOf (List.replicate 64 0x11) [] bytesA 75).buf ∧
      (atBit bytesA 75).pos = (atBitOf (List.replicate 64 0x11) [] bytesA 75).pos ∧
      (atBit bytesA 75).la ≠ (atBitOf (List.replicate 64 0x11) [] bytesA 75).la ∧
      exec (.rdb 5) (atBit bytesA 75) = .next t ∧
      exec (.rdb 5) (atBitOf (List.replicate 64 0x11) [] bytesA 75) = .next t' ∧
      t.responses = (atBit bytesA 75).responses ++ [r] ∧
      t'.responses = (atBitOf (List.replicate 64 0x11) [] bytesA 75).responses ++ [r'] :=
  ⟨_, _, _, _, soundA 75 (by decide), atBitOf_sound _ _ _ _ (by decide) (by decide), by decide, rfl, rfl,
    by decide +kernel, (exec_after _ _).1, (exec_after _ _).1, (exec_after _ _).2, (exec_after _ _).2⟩

/-! ### The lookahead -/

/-- A read that ends at bit 75, and an error there: inside the buffer, past it, and the low zero bits. -/
theorem test_witness_LookaheadHoldsTheNextStreamBits :
    (∃ t, (atBit bytesA 70).Sound ∧ exec (.rdb 5) (atBit bytesA 70) = .next t ∧ t.init = true ∧
      (4 ≤ 31 - t.pos.toNat % 8 ∧ t.pos.toNat + 4 < 8 * t.buf.len) ∧
      (28 ≤ 31 - t.pos.toNat % 8 ∧ 8 * t.buf.len ≤ t.pos.toNat + 5) ∧ 2 < t.pos.toNat % 8) ∧
    (∃ t, (atBit bytesA 75).Sound ∧ exec (.rdb 6) (atBit bytesA 75) = .next t ∧ t.init = true) :=
  ⟨⟨_, soundA 70 (by decide), (exec_after _ _).1, by decide +kernel, by decide +kernel⟩,
   ⟨_, soundA 75 (by decide), (exec_after _ _).1, by decide +kernel⟩⟩

/-! ### Creation, positioning and status -/

theorem test_witness_InitCreatesTheCursor :
    (noCursor [] []).buf.len = 0 ∧ (-1 : Int) < 0 ∧ (8 * (noCursor bytesA []).buf.len : Int) < 81 ∧
    (noCursor bytesA []).buf.wf = true ∧ (noCursor bytesA []).buf.len ≠ 0 ∧ (0 : Int) ≤ 80 ∧
    (80 : Int) ≤ (8 * (noCursor bytesA []).buf.len : Int) := by decide +kernel

theorem test_witness_SeekAdvances :
    (noCursor bytesA []).init = false ∧ (atBit bytesA 36).init = true ∧ (0 : Int) ≤ 0 ∧
    (8 * (atBit bytesA 36).buf.len : Int) < (atBit bytesA 36).pos.toNat + 45 ∧
    (atBit bytesA 36).Sound ∧ (atBit bytesA 36).pos.toNat + 44 ≤ (8 * (atBit bytesA 36).buf.len : Int) :=
  ⟨rfl, rfl, by decide, by decide +kernel, soundA 36 (by decide), by decide +kernel⟩

theorem test_witness_FlushReachesTheByteBoundary :
    (noCursor bytesA []).init = false ∧ (atBit bytesA 80).init = true ∧ (atBit bytesA 80).pos.toNat % 8 = 0 ∧
    (atBit bytesA 79).Sound ∧ (atBit bytesA 79).init = true ∧ (atBit bytesA 79).pos.toNat % 8 ≠ 0 :=
  ⟨rfl, rfl, by decide +kernel, soundA 79 (by decide), rfl, by decide +kernel⟩

theorem test_witness_SeeksAdd :
    (atBit bytesA 5).Sound ∧ (atBit bytesA 5).init = true ∧ (0 : Int) < 1 ∧ (0 : Int) < 74 ∧
    (atBit bytesA 5).pos.toNat + (1 : Int) + 74 ≤ (8 * (atBit bytesA 5).buf.len : Int) :=
  ⟨soundA 5 (by decide), rfl, by decide, by decide, by decide +kernel⟩

theorem test_witness_GetposReturnsThePosition : (noCursor bytesA []).init = false ∧ (atBit bytesA 80).init = true :=
  ⟨rfl, rfl⟩

theorem test_witness_GetlaReturnsTheLookahead :
    (noCursor bytesA []).init = false ∧ (atBit bytesA 79).init = true ∧ (atBit bytesA 79).Sound ∧
    6 < (atBit bytesA 79).pos.toNat % 8 :=
  ⟨rfl, rfl, soundA 79 (by decide), by decide +kernel⟩

/-! ### Fixed-width reads -/

theorem test_witness_RdbitReadsTheNextBit :
    (noCursor bytesA []).init = false ∧ (atBit bytesA 80).init = true ∧
    8 * (atBit bytesA 80).buf.len < (atBit bytesA 80).pos.toNat + 1 ∧
    (atBit bytesA 79).Sound ∧ (atBit bytesA 79).pos.toNat + 1 ≤ 8 * (atBit bytesA 79).buf.len :=
  ⟨rfl, rfl, by decide +kernel, soundA 79 (by decide), by decide +kernel⟩

/-- For RDB and RDBS: the widths 0 and 33, the widths 1 and 32 past the end, and 24, 25 and 32 at it. -/
theorem test_witness_RdbReadsTheField_RdbsReadsTheSignedField :
    (noCursor bytesA []).init = false ∧ (atBit bytesA 80).init = true ∧ (0 < 1 ∧ 32 < 33) ∧
    (8 * (atBit bytesA 80).buf.len < (atBit bytesA 80).pos.toNat + 1 ∧
      8 * (atBit bytesA 49).buf.len < (atBit bytesA 49).pos.toNat + 32) ∧
    ((atBit bytesA 48).Sound ∧ (atBit bytesA 48).init = true ∧
      (atBit bytesA 48).pos.toNat + 32 ≤ 8 * (atBit bytesA 48).buf.len) ∧
    ((atBit bytesA 55).Sound ∧ (atBit bytesA 55).pos.toNat + 25 ≤ 8 * (atBit bytesA 55).buf.len) ∧
    ((atBit bytesA 56).Sound ∧ (atBit bytesA 56).pos.toNat + 24 ≤ 8 * (atBit bytesA 56).buf.len) :=
  ⟨rfl, rfl, by decide, by decide +kernel, ⟨soundA 48 (by decide), rfl, by decide +kernel⟩,
    ⟨soundA 55 (by decide), by decide +kernel⟩, ⟨soundA 56 (by decide), by decide +kernel⟩⟩

/-- For RDB64 and RDB64S: the widths 0 and 65, the widths 1 and 64 past the end, and 1 and 64 at it. -/
theorem test_witness_Rdb64ReadsTheField_Rdb64sReadsTheSignedField :
    (noCursor bytesA []).init = false ∧ (atBit bytesA 80).init = true ∧ (0 < 1 ∧ 64 < 65) ∧
    (8 * (atBit bytesA 80).buf.len < (atBit bytesA 80).pos.toNat + 1 ∧
      8 * (atBit bytesA 17).buf.len < (atBit bytesA 17).pos.toNat + 64) ∧
    ((atBit bytesA 16).Sound ∧ (atBit bytesA 16).init = true ∧
      (atBit bytesA 16).pos.toNat + 64 ≤ 8 * (atBit bytesA 16).buf.len) ∧
    ((atBit bytesA 79).Sound ∧ (atBit bytesA 79).pos.toNat + 1 ≤ 8 * (atBit bytesA 79).buf.len) :=
  ⟨rfl, rfl, by decide, by decide +kernel, ⟨soundA 16 (by decide), rfl, by decide +kernel⟩,
    ⟨soundA 79 (by decide), by decide +kernel⟩⟩

theorem test_witness_ReadsInOrderReturnTheFields :
    (atBit bytesA 3).Sound ∧ (atBit bytesA 3).init = true ∧
    (atBit bytesA 3).pos.toNat + [1, 32, 24, 20].sum ≤ 8 * (atBit bytesA 3).buf.len ∧
    (∀ w ∈ [1, 32, 24, 20], 1 ≤ w ∧ w ≤ 32) ∧
    (atBit bytesA 3).pos.toNat + [64, 1, 12].sum ≤ 8 * (atBit bytesA 3).buf.len ∧
    (∀ w ∈ [64, 1, 12], 1 ≤ w ∧ w ≤ 64) :=
  ⟨soundA 3 (by decide), rfl, by decide +kernel, by decide, by decide +kernel, by decide⟩

/-! ### Unary codes -/

/-- For RDUN and RDUNS: no cursor; no set bit left, in the buffer and at its end; the first set bit, at `pos` and
after a whole zero byte. -/
theorem test_witness_RdunReturnsTheDistanceToTheFirstSetBit_RdunsReturnsTheZigzagOfTheUnaryValue :
    (noCursor bytesA []).init = false ∧
    ((atBit [0x80, 0x00] 1).init = true ∧ ∀ q, (atBit [0x80, 0x00] 1).pos.toNat ≤ q →
      q < 8 * (atBit [0x80, 0x00] 1).buf.len → (atBit [0x80, 0x00] 1).buf.streamBit q = false) ∧
    ((atBit [0x00, 0x01] 3).Sound ∧ (atBit [0x00, 0x01] 3).init = true ∧
      (atBit [0x00, 0x01] 3).buf.firstSet (atBit [0x00, 0x01] 3).pos.toNat 15) ∧
    ((atBit [0x01] 7).Sound ∧ (atBit [0x01] 7).init = true ∧
      (atBit [0x01] 7).buf.firstSet (atBit [0x01] 7).pos.toNat 7) :=
  ⟨rfl,
   ⟨rfl, fun q h h' =>
     (by decide +kernel : ∀ q < 16, 1 ≤ q → (atBit [0x80, 0x00] 1).buf.streamBit q = false) q h' h⟩,
   ⟨atBit_sound _ _ (by decide) (by decide), rfl, by decide +kernel, by decide +kernel, by decide +kernel,
     fun q h h' =>
       (by decide +kernel : ∀ q < 15, 3 ≤ q → (atBit [0x00, 0x01] 3).buf.streamBit q = false) q h' h⟩,
   ⟨atBit_sound _ _ (by decide) (by decide), rfl, by decide +kernel, by decide +kernel, by decide +kernel,
     fun q h h' => absurd h' (Nat.not_lt.mpr h)⟩⟩

/-! ### UTF-8-like integers -/

/-- Six continuation bytes in the 64-bit forms, five in the 32-bit forms, none, each up to the buffer's end. -/
theorem test_witness_Utf8ReadsAValidInteger :
    (∀ i ∈ [Instr.rdu8l, .rdu8ls], (i, 64, 6) ∈ utf8Forms ∧ (0xFE, 0xFE, 6) ∈ utf8Rows ∧
      (atBit [0xFE, 0xBF, 0xBF, 0xBF, 0xBF, 0xBF, 0x80] 0).Sound ∧
      0 + 8 * (6 + 1) ≤ 8 * (atBit [0xFE, 0xBF, 0xBF, 0xBF, 0xBF, 0xBF, 0x80] 0).buf.len ∧
      ((atBit [0xFE, 0xBF, 0xBF, 0xBF, 0xBF, 0xBF, 0x80] 0).buf.octet 0).toNat = 0xFE ∧
      ∀ j, j < 6 → (atBit [0xFE, 0xBF, 0xBF, 0xBF, 0xBF, 0xBF, 0x80] 0).buf.continuesAt (0 + 8 * (j + 1))) ∧
    (∀ i ∈ [Instr.rdu8, .rdu8s], (i, 32, 5) ∈ utf8Forms ∧ (0xFC, 0xFD, 5) ∈ utf8Rows ∧
      (atBit [0xFD, 0xBF, 0xBF, 0xBF, 0xBF, 0xBF] 0).Sound ∧
      0 + 8 * (5 + 1) ≤ 8 * (atBit [0xFD, 0xBF, 0xBF, 0xBF, 0xBF, 0xBF] 0).buf.len ∧
      ((atBit [0xFD, 0xBF, 0xBF, 0xBF, 0xBF, 0xBF] 0).buf.octet 0).toNat = 0xFD ∧
      ∀ j, j < 5 → (atBit [0xFD, 0xBF, 0xBF, 0xBF, 0xBF, 0xBF] 0).buf.continuesAt (0 + 8 * (j + 1))) :=
  ⟨fun i hi => ⟨by revert i; decide, by decide, atBit_sound _ _ (by decide) (by decide), by decide +kernel,
      by decide +kernel, (by unfold Memory.continuesAt; decide +kernel : ∀ j, j < 6 →
        (atBit [0xFE, 0xBF, 0xBF, 0xBF, 0xBF, 0xBF, 0x80] 0).buf.continuesAt (0 + 8 * (j + 1)))⟩,
   fun i hi => ⟨by revert i; decide, by decide, atBit_sound _ _ (by decide) (by decide), by decide +kernel,
      by decide +kernel, (by unfold Memory.continuesAt; decide +kernel : ∀ j, j < 5 →
        (atBit [0xFD, 0xBF, 0xBF, 0xBF, 0xBF, 0xBF] 0).buf.continuesAt (0 + 8 * (j + 1)))⟩⟩

theorem test_witness_Utf8LeadingByteFails :
    ((atBit [0x80] 0).Sound ∧ (atBit [0x80] 0).buf.continuesAt 0) ∧
    ((atBit [0xBF] 0).Sound ∧ (atBit [0xBF] 0).buf.continuesAt 0) ∧
    ((atBit [0xFF] 0).Sound ∧ (atBit [0xFF] 0).buf.octet 0 = 0xFF) ∧
    ((atBit [0xFE] 0).Sound ∧ (atBit [0xFE] 0).buf.octet 0 = 0xFE ∧ (Instr.rdu8, 32, 5) ∈ utf8Forms ∧
      (atBit [0xFE] 0).pos.toNat + 8 ≤ 8 * (atBit [0xFE] 0).buf.len) :=
  ⟨⟨atBit_sound _ _ (by decide) (by decide), by unfold Memory.continuesAt; decide +kernel⟩,
   ⟨atBit_sound _ _ (by decide) (by decide), by unfold Memory.continuesAt; decide +kernel⟩,
   ⟨atBit_sound _ _ (by decide) (by decide), by decide +kernel⟩,
   ⟨atBit_sound _ _ (by decide) (by decide), by decide +kernel, by decide, by decide +kernel⟩⟩

/-- The second of two continuation bytes fails, at the buffer's end. -/
theorem test_witness_Utf8ContinuationByteFails :
    (Instr.rdu8s, 32, 5) ∈ utf8Forms ∧ (0xE0, 0xEF, 2) ∈ utf8Rows ∧ (atBit [0xE0, 0x80, 0x7F] 0).Sound ∧
    (atBit [0xE0, 0x80, 0x7F] 0).pos.toNat + 8 * (1 + 2) ≤ 8 * (atBit [0xE0, 0x80, 0x7F] 0).buf.len ∧
    ((atBit [0xE0, 0x80, 0x7F] 0).buf.octet 0).toNat = 0xE0 ∧
    (∀ j', j' < 1 → (atBit [0xE0, 0x80, 0x7F] 0).buf.continuesAt (0 + 8 * (j' + 1))) ∧
    ¬ (atBit [0xE0, 0x80, 0x7F] 0).buf.continuesAt (0 + 8 * (1 + 1)) :=
  ⟨by decide, by decide, atBit_sound _ _ (by decide) (by decide), by decide +kernel, by decide +kernel,
    by unfold Memory.continuesAt; decide +kernel, by unfold Memory.continuesAt; decide +kernel⟩

/-- The leading byte does not fit; the third byte of three does not. -/
theorem test_witness_Utf8RollsBackAtTheEndOfTheBuffer :
    (Instr.rdu8, 32, 5) ∈ utf8Forms ∧
    ((atBit bytesA 73).Sound ∧ (atBit bytesA 73).init = true ∧
      8 * (atBit bytesA 73).buf.len < (atBit bytesA 73).pos.toNat + 8) ∧
    ((0xE0, 0xEF, 2) ∈ utf8Rows ∧ (atBit [0xEF, 0xBF] 0).Sound ∧ (atBit [0xEF, 0xBF] 0).init = true ∧
      (atBit [0xEF, 0xBF] 0).pos.toNat + 8 * (1 + 1) ≤ 8 * (atBit [0xEF, 0xBF] 0).buf.len ∧
      8 * (atBit [0xEF, 0xBF] 0).buf.len < (atBit [0xEF, 0xBF] 0).pos.toNat + 8 * (1 + 2) ∧
      ((atBit [0xEF, 0xBF] 0).buf.octet 0).toNat = 0xEF ∧
      ∀ j', j' < 1 → (atBit [0xEF, 0xBF] 0).buf.continuesAt (0 + 8 * (j' + 1))) :=
  ⟨by decide, ⟨soundA 73 (by decide), rfl, by decide +kernel⟩, by decide,
    atBit_sound _ _ (by decide) (by decide), rfl, by decide +kernel, by decide +kernel, by decide +kernel,
    by unfold Memory.continuesAt; decide +kernel⟩

/-! ### Checksums -/

theorem test_witness_Crc8FollowsTheTable_Crc16FollowsTheTable :
    (noCursor bytesA []).buf.len < 11 + 0 ∧ 10 ≤ (noCursor bytesA []).buf.len ∧ (noCursor bytesA []).Sound ∧
    0 + (9 + 1) ≤ (noCursor bytesA []).buf.len :=
  ⟨by decide, by decide, noCursor_sound _ _ (by decide), by decide⟩

theorem test_witness_ChecksumsArePolynomialRemainders :
    (noCursor bytesA []).Sound ∧ 3 + 7 ≤ (noCursor bytesA []).buf.len := ⟨noCursor_sound _ _ (by decide), by decide⟩

/-- Two messages followed by their checksums (spec/95_test_vectors.md 2.6). -/
def withCrc8 : State := noCursor [0xFF, 0xF8, 0xC9, 0x18, 0x00, 0xC2] []

def withCrc16 : State := noCursor [0xFF, 0xF8, 0xC9, 0x18, 0x00, 0x97, 0xB7] []

theorem test_witness_AppendingTheChecksumGivesZero :
    (withCrc8.Sound ∧ 0 + 5 + 1 ≤ withCrc8.buf.len ∧
      exec (.crc8 0 5) withCrc8 = .next ((withCrc8.countCrcReads 5).returned ((0xC2 : BitVec 8).setWidth 64)) ∧
      withCrc8.buf.byteAt (0 + 5) = (0xC2 : BitVec 8)) ∧
    (withCrc16.Sound ∧ 0 + 5 + 2 ≤ withCrc16.buf.len ∧
      exec (.crc16 0 5) withCrc16 = .next ((withCrc16.countCrcReads 5).returned ((0x97B7 : BitVec 16).setWidth 64)) ∧
      withCrc16.buf.byteAt (0 + 5) = (0x97B7 : BitVec 16).extractLsb' 8 8 ∧
      withCrc16.buf.byteAt (0 + 5 + 1) = (0x97B7 : BitVec 16).extractLsb' 0 8) := by
  have h8 : crcLoop (crc8Step withCrc8.t8) withCrc8.buf 0 5 0 = 0xC2 := by decide +kernel
  have h16 : crcLoop (crc16Step withCrc16.t16) withCrc16.buf 0 5 0 = 0x97B7 := by decide +kernel
  refine ⟨⟨noCursor_sound _ _ (by decide), by decide, ?_, by decide +kernel⟩,
    ⟨noCursor_sound _ _ (by decide), by decide, ?_, by decide +kernel, by decide +kernel⟩⟩
  · rw [exec, execCrc8, if_neg (by decide), h8]; rfl
  · rw [exec, execCrc16, if_neg (by decide), h16]; rfl

/-! ### The buffer -/

theorem test_witness_BufferFormIsCanonical :
    bytesA.length ≤ 2 ^ 28 ∧ 9 < bytesA.length ∧ (Memory.ofBytes bytesA).wf = true ∧
    (⟨[(0, 0xA5), (1, 0x3C)], 4⟩ : Memory).wf = true ∧ (⟨[(0, 0xA5), (1, 0x00)], 4⟩ : Memory).wf = false ∧
    (⟨[(1, 0x3C), (0, 0xA5)], 4⟩ : Memory).wf = false ∧ (⟨[(4, 0xA5)], 4⟩ : Memory).wf = false := by decide +kernel

theorem test_witness_ReloadIsBigEndianAndShifted :
    9 < (Memory.ofBytes bytesA).len ∧ (Memory.ofBytes bytesA).len ≤ 10 := by decide

end Sys2Proof.Tests
end

/-! SUPPORT. Every command's effect on the cursor, said once in any state and once in a sound one, and the statements on
the state, the runs and the invariant that follow (10_state.md). -/

namespace Sys2Proof

/-- Only INIT is INIT. -/
theorem Instr.eq_init_of_isInit {i : Instr} (h : i.isInit = true) : ∃ bo, i = .init bo := by
  cases i <;> simp_all [Instr.isInit]

/-- INIT consumes no bits (10_state.md R22). -/
theorem Instr.isInit_of_consumes {i : Instr} (h : i.consumes = true) : i.isInit = false := by
  cases i <;> simp_all [Instr.consumes, Instr.isInit]

end Sys2Proof

namespace Sys2Proof.Machine

/-! ## Responses and endings -/

/-- The code of an error response is not 0 (30_encoding.md R66). -/
theorem Response.error_err_ne_zero (e : ErrorKind) : (Response.error e).err ≠ 0 := by cases e <;> decide

/-- The one response added to the earlier ones is the last. -/
theorem State.response_of_answer {s u : State} {r r' : Response}
    (h : (u.answer r).responses = s.responses ++ [r']) : r = r' :=
  List.singleton_inj.1 (List.append_inj' h rfl).2

/-- A result answers one state. -/
theorem next_unique {res : Result} {t u : State} (h : res = .next t) (h' : res = .next u) : t = u :=
  Host.Outcome.next.inj (h.symm.trans h')

/-- What a command answers is its ending. -/
theorem exec_next {i : Instr} {s t : State} (h : exec i s = .next t) :
    ∃ u r, t = u.answer r ∧ Ends s (exec i s) u r := by
  obtain ⟨u, r, he⟩ := exec_ends i s
  obtain rfl := next_unique he.next h
  exact ⟨u, r, rfl, he⟩

/-- The same, with the response it adds. -/
theorem exec_response {i : Instr} {s t : State} {r : Response} (h : exec i s = .next t)
    (hr : t.responses = s.responses ++ [r]) : ∃ u, t = u.answer r ∧ Ends s (exec i s) u r := by
  obtain ⟨u, r', rfl, he⟩ := exec_next h
  obtain rfl := State.response_of_answer hr
  exact ⟨u, rfl, he⟩

/-! ## The cursor commands in any state -/

/-- `u` is `s` but for the cursor registers and the count of reloads: what the reads and the seeks may write. -/
def State.SameButCursor (s u : State) : Prop := u = { s with pos := u.pos, la := u.la, reloads := u.reloads }

theorem State.SameButCursor.refl (s : State) : s.SameButCursor s := rfl

theorem State.SameButCursor.advance (s : State) (k : Nat) : s.SameButCursor (s.advance k) := rfl

theorem State.SameButCursor.rollBackTo {s u : State} (h : s.SameButCursor u) (v : State) :
    s.SameButCursor (u.rollBackTo v) := by
  rw [State.SameButCursor] at h
  rw [h]
  rfl

theorem State.SameButCursor.trans {s u v : State} (h : s.SameButCursor u) (h' : u.SameButCursor v) :
    s.SameButCursor v := by
  rw [State.SameButCursor] at h h'
  rw [h', h]
  rfl

theorem State.SameButCursor.init {s u : State} (h : s.SameButCursor u) : u.init = s.init := by
  rw [State.SameButCursor] at h
  rw [h]

theorem State.SameButCursor.crcReads {s u : State} (h : s.SameButCursor u) : u.crcReads = s.crcReads := by
  rw [State.SameButCursor] at h
  rw [h]

theorem readCore_sameButCursor (n : Nat) (s : State) : s.SameButCursor (readCore n s).2 := by
  rw [readCore]
  split
  · exact .advance s n
  · exact (State.SameButCursor.advance s 24).trans (.advance _ _)

theorem readChunks_sameButCursor (fuel m : Nat) (x : Long) (s : State) :
    s.SameButCursor (readChunks fuel m x s).2 := by
  induction fuel generalizing m x s with
  | zero => exact .refl s
  | succ fuel ih =>
    rw [readChunks]
    split
    · exact .refl s
    · exact (readCore_sameButCursor (min 24 m) s).trans (ih _ _ _)

theorem skipZeroBytes_sameButCursor (fuel : Nat) (c : Word) (s : State) :
    s.SameButCursor (skipZeroBytes fuel c s).2 := by
  induction fuel generalizing c s with
  | zero => exact .refl s
  | succ fuel ih =>
    rw [skipZeroBytes]
    split
    · exact (State.SameButCursor.advance s 8).trans (ih _ _)
    · exact .refl s

theorem readUnary_sameButCursor (s : State) : s.SameButCursor (readUnary s).2 :=
  (skipZeroBytes_sameButCursor (s.buf.len + 1) 0 s).trans (.advance _ _)

theorem readByte_sameButCursor {s t : State} {b : Byte} (h : readByte s = some (b, t)) : s.SameButCursor t := by
  rw [readByte] at h
  split at h
  · cases h
  · cases h
    exact readCore_sameButCursor 8 s

theorem utf8Continue_sameButCursor {w : Nat} (k : Nat) (v : BitVec w) (s : State) :
    s.SameButCursor (utf8Continue k v s).2 := by
  induction k generalizing v s with
  | zero => exact .refl s
  | succ k ih =>
    rw [utf8Continue]
    cases hb : readByte s with
    | none => exact .refl s
    | some ct =>
      have h := readByte_sameButCursor hb
      dsimp only
      split
      · exact h.trans (ih _ _)
      · exact h

theorem utf8Decode_sameButCursor (w kMax : Nat) (s : State) : s.SameButCursor (utf8Decode w kMax s).2 := by
  rw [utf8Decode]
  cases hb : readByte s with
  | none => exact .refl s
  | some xt =>
    have h := readByte_sameButCursor hb
    dsimp only
    cases leadByte xt.1 with
    | none => exact h
    | some kv =>
      dsimp only
      split
      · exact h
      · exact h.trans (utf8Continue_sameButCursor kv.1 (kv.2.setWidth w) xt.2)

/-- A result that answers one response at a state that is `s` but for the cursor registers and the reloads. -/
def AnswersAtCursor (s : State) (res : Result) : Prop := ∃ u r, res = .next (u.answer r) ∧ s.SameButCursor u

theorem raise_atCursor (e : ErrorKind) (s : State) : AnswersAtCursor s (raise e s) := ⟨s, _, rfl, rfl⟩

theorem respond_atCursor {s u : State} (h : s.SameButCursor u) (r : Response) : AnswersAtCursor s (respond r u) :=
  ⟨u, r, rfl, h⟩

theorem utf8Respond_atCursor (w kMax : Nat) (cast : BitVec w → BitVec w) (s : State) :
    AnswersAtCursor s (utf8Respond w kMax cast s) := by
  rw [utf8Respond]
  split
  · exact raise_atCursor _ s
  · have h := utf8Decode_sameButCursor w kMax s
    cases hd : utf8Decode w kMax s with
    | mk e t =>
      rw [hd] at h
      cases e with
      | value v => exact respond_atCursor h _
      | failure => exact respond_atCursor h _
      | endOfStream => exact ⟨t.rollBackTo s, _, rfl, h.rollBackTo s⟩

/-- Every cursor command but INIT writes at most the cursor registers and the count of reloads (10_state.md R21,
20_memory.md R58). -/
theorem exec_atCursor {i : Instr} (hc : i.isCursor = true) (hi : i.isInit = false) (s : State) :
    AnswersAtCursor s (exec i s) := by
  cases i with
  | init bo => cases hi
  | crc8 off cnt => cases hc
  | crc16 off cnt => cases hc
  | seek n =>
    simp only [exec, execSeek]
    split
    · exact raise_atCursor _ s
    split
    · exact raise_atCursor _ s
    split
    · exact raise_atCursor _ s
    · exact respond_atCursor (.advance s _) _
  | flush =>
    simp only [exec, execFlush]
    split
    · exact raise_atCursor _ s
    split
    · exact respond_atCursor (.refl s) _
    · exact respond_atCursor (.advance s _) _
  | rdbit =>
    simp only [exec, execRdbit]
    split
    · exact raise_atCursor _ s
    split
    · exact raise_atCursor _ s
    · exact respond_atCursor (.advance s 1) _
  | rdb n =>
    simp only [exec, execRdb]
    split
    · exact raise_atCursor _ s
    · exact respond_atCursor (readCore_sameButCursor n s) _
  | rdbs n =>
    simp only [exec, execRdbs]
    split
    · exact raise_atCursor _ s
    · exact respond_atCursor (readCore_sameButCursor n s) _
  | rdb64 n =>
    simp only [exec, execRdb64]
    split
    · exact raise_atCursor _ s
    · exact respond_atCursor (readChunks_sameButCursor 3 n 0 s) _
  | rdb64s n =>
    simp only [exec, execRdb64s]
    split
    · exact raise_atCursor _ s
    · exact respond_atCursor (readChunks_sameButCursor 3 n 0 s) _
  | rdun =>
    simp only [exec, execRdun]
    split
    · exact raise_atCursor _ s
    · exact respond_atCursor (readUnary_sameButCursor s) _
  | rduns =>
    simp only [exec, execRduns]
    split
    · exact raise_atCursor _ s
    · exact respond_atCursor (readUnary_sameButCursor s) _
  | rdu8 => exact utf8Respond_atCursor 32 5 id s
  | rdu8s => exact utf8Respond_atCursor 32 5 signedPattern s
  | rdu8l => exact utf8Respond_atCursor 64 6 id s
  | rdu8ls => exact utf8Respond_atCursor 64 6 signedPattern s
  | getpos =>
    simp only [exec, execGetpos]
    split
    · exact raise_atCursor _ s
    · exact respond_atCursor (.refl s) _
  | getla =>
    simp only [exec, execGetla]
    split
    · exact raise_atCursor _ s
    · exact respond_atCursor (.refl s) _

/-- A status read answers at the state it is run in (40_cursor_fixed.md R96, R97). -/
theorem exec_status {i : Instr} (hi : i = .getpos ∨ i = .getla) (s : State) : ∃ r, exec i s = .next (s.answer r) := by
  rcases hi with rfl | rfl
  · simp only [exec, execGetpos]
    split
    · exact ⟨_, rfl⟩
    · exact ⟨_, rfl⟩
  · simp only [exec, execGetla]
    split
    · exact ⟨_, rfl⟩
    · exact ⟨_, rfl⟩

/-- Without a cursor every cursor command but INIT raises NotInitialised (10_state.md R21). -/
theorem exec_eq_raise_of_init_false {i : Instr} (hc : i.isCursor = true) (hi : i.isInit = false) {s : State}
    (h : s.init = false) : exec i s = raise .notInitialised s := by
  cases i with
  | init bo => cases hi
  | crc8 off cnt => cases hc
  | crc16 off cnt => cases hc
  | seek n => exact if_pos h
  | flush => exact if_pos h
  | rdbit => exact if_pos h
  | rdb n => simp only [exec, execRdb, fieldError, if_pos h]
  | rdbs n => simp only [exec, execRdbs, fieldError, if_pos h]
  | rdb64 n => simp only [exec, execRdb64, fieldError, if_pos h]
  | rdb64s n => simp only [exec, execRdb64s, fieldError, if_pos h]
  | rdun => simp only [exec, execRdun, unaryError, if_pos h]
  | rduns => simp only [exec, execRduns, unaryError, if_pos h]
  | rdu8 => exact if_pos h
  | rdu8s => exact if_pos h
  | rdu8l => exact if_pos h
  | rdu8ls => exact if_pos h
  | getpos => exact if_pos h
  | getla => exact if_pos h

/-! ## INIT and the checksums, whatever the cursor registers hold -/

/-- The state with these three registers of the cursor. -/
def State.withCursor (s : State) (b : Bool) (p l : Word) : State := { s with init := b, pos := p, la := l }

/-- The state with a cursor created at bit position `q` (40_cursor_fixed.md R82). -/
def State.created (s : State) (q : Nat) : State := ({ s with init := true }.setPos q).reload

/-- INIT raises InvalidArgument, or creates a cursor within the buffer, and reads no register of an old one
(40_cursor_fixed.md R82). -/
theorem exec_init (bo : Int) (s : State) :
    (∀ b p l, exec (.init bo) (s.withCursor b p l) = raise .invalidArgument (s.withCursor b p l)) ∨
      (bo.toNat ≤ s.bitLen ∧ ∀ b p l, exec (.init bo) (s.withCursor b p l) = respond .done (s.created bo.toNat)) := by
  by_cases h : s.buf.len = 0 ∨ bo < 0
  · exact .inl fun b p l => if_pos h
  by_cases h' : (s.bitLen : Int) < bo
  · exact .inl fun b p l => (if_neg h).trans (if_pos h')
  · exact .inr ⟨by omega, fun b p l => (if_neg h).trans (if_neg h')⟩

/-- A checksum command counts its byte reads and answers a response that no register of the cursor enters (20_memory.md
R58, 42_crc.md R144, R145). -/
theorem exec_checksum {i : Instr} (hc : i.isCursor = false) (s : State) :
    ∃ n r, ∀ b p l, exec i (s.withCursor b p l) = .next (((s.withCursor b p l).countCrcReads n).answer r) := by
  cases i with
  | crc8 off cnt =>
    by_cases h : s.buf.len < off + cnt
    · exact ⟨0, _, fun b p l => if_pos h⟩
    · exact ⟨cnt, .value (crcLoop (crc8Step s.t8) s.buf off cnt 0), fun b p l => if_neg h⟩
  | crc16 off cnt =>
    by_cases h : s.buf.len < off + cnt
    · exact ⟨0, _, fun b p l => if_pos h⟩
    · exact ⟨cnt, .value (crcLoop (crc16Step s.t16) s.buf off cnt 0), fun b p l => if_neg h⟩
  | init | seek | flush | rdbit | rdb | rdbs | rdb64 | rdb64s | rdun | rduns | rdu8 | rdu8s | rdu8l | rdu8ls
  | getpos | getla => cases hc

end Sys2Proof.Machine

/-! ## Every command from a sound state -/

namespace Sys2Proof.Machine

/-- Where a command that ends at `u` with the response `r` has left the cursor of a sound state (10_state.md R22, R23). -/
inductive State.CursorAt (i : Instr) (s u : State) (r : Response) : Prop
  /-- The cursor is as before; a command that consumes bits does so only by an error. -/
  | stays (init : u.init = s.init) (pos : u.pos = s.pos) (la : u.la = s.la)
      (err : i.consumes = true → r.err ≠ 0)
  /-- The cursor is at a position in the buffer, its lookahead reloaded there; only INIT may have gone back. -/
  | moves (init : u.init = true) (posLe : u.pos.toNat ≤ s.bitLen)
      (lookahead : ∃ d, d < u.reloads ∧ u.la = s.buf.reload s.draws d u.pos.toNat)
      (mono : i.isInit = false → s.pos.toNat < u.pos.toNat)

/-- A cursor stays within the buffer (10_state.md R22). -/
theorem State.CursorAt.posLe_bitLen {i : Instr} {s t : State} {r : Response} (hc : s.CursorAt i t r) (hs : s.Sound)
    (hi : t.init = true) : t.pos.toNat ≤ s.bitLen := by
  cases hc with
  | stays init pos la err => exact pos ▸ hs.posLe (init ▸ hi)
  | moves init posLe lookahead mono => exact posLe

/-- A cursor's lookahead stays a reload at its position (10_state.md R23). -/
theorem State.CursorAt.exists_reload {i : Instr} {s t : State} {r : Response} (hc : s.CursorAt i t r) (hs : s.Sound)
    (hr : s.reloads ≤ t.reloads) (hi : t.init = true) :
    ∃ d, d < t.reloads ∧ t.la = s.buf.reload s.draws d t.pos.toNat := by
  cases hc with
  | stays init pos la err =>
    obtain ⟨d, hd, hl⟩ := hs.lookahead (init ▸ hi)
    exact ⟨d, hd.trans_le hr, by rw [la, pos, hl]⟩
  | moves init posLe lookahead mono => exact lookahead

/-- A result that answers one response and leaves the cursor so. -/
def AnswersSoundly (i : Instr) (s : State) (res : Result) : Prop :=
  ∃ u r, res = .next (u.answer r) ∧ s.CursorAt i u r

section
variable {i : Instr} {s : State}

/-- A state `u` with the cursor of `s` raises an error. -/
theorem raise_soundly (e : ErrorKind) {u : State} (hi : u.init = s.init) (hp : u.pos = s.pos) (hl : u.la = s.la) :
    AnswersSoundly i s (raise e u) :=
  ⟨u, _, rfl, .stays hi hp hl fun _ => Response.error_err_ne_zero e⟩

theorem respond_stays_soundly (hc : i.consumes = false) {u : State} (hi : u.init = s.init) (hp : u.pos = s.pos)
    (hl : u.la = s.la) (r : Response) : AnswersSoundly i s (respond r u) :=
  ⟨u, r, rfl, .stays hi hp hl fun h => by rw [hc] at h; cases h⟩

/-- Moving on within the buffer by at least one reload leaves the cursor so. -/
theorem respond_movedTo_soundly (hs : s.Sound) (hi : s.init = true) {q n : Nat} (hq : s.pos.toNat < q)
    (hle : q ≤ s.bitLen) (hn : 1 ≤ n) (r : Response) : AnswersSoundly i s (respond r (s.movedTo q n)) := by
  have hp := (hs.loaded hi).pos_movedTo hle n
  have hd : s.reloads + n - 1 < (s.movedTo q n).reloads := by rw [State.movedTo_reloads]; omega
  exact ⟨s.movedTo q n, r, rfl, .moves hi (by rwa [hp]) ⟨_, hd, by rw [hp]; rfl⟩ fun _ => by rwa [hp]⟩

theorem respond_advance_soundly (hs : s.Sound) (hi : s.init = true) {k : Nat} (hk : 1 ≤ k)
    (hle : s.pos.toNat + k ≤ s.bitLen) (r : Response) : AnswersSoundly i s (respond r (s.advance k)) := by
  rw [(hs.loaded hi).advance hle]
  exact respond_movedTo_soundly hs hi (by omega) hle le_rfl r

theorem respond_readCore_soundly (hs : s.Sound) {n : Nat} (h : fieldError 32 n s = none) (r : Response) :
    AnswersSoundly i s (respond r (readCore n s).2) := by
  obtain ⟨hi, ⟨h1, h2⟩, hk⟩ := fieldError_eq_none.1 h
  rw [readCore_eq (hs.loaded hi) h2 hk]
  exact respond_movedTo_soundly hs hi (by omega) hk (by split <;> omega) r

theorem respond_readCore64_soundly (hs : s.Sound) {n : Nat} (h : fieldError 64 n s = none) (r : Response) :
    AnswersSoundly i s (respond r (readCore64 n s).2) := by
  obtain ⟨hi, ⟨h1, h2⟩, hk⟩ := fieldError_eq_none.1 h
  rw [readCore64_eq (hs.loaded hi) h1 h2 hk]
  exact respond_movedTo_soundly hs hi (by omega) hk (by omega) r

/-- The unary checks pass only where a first set bit lies ahead of the cursor. -/
theorem exists_firstSet_of_unaryError (hs : s.Sound) (h : unaryError s = none) :
    s.init = true ∧ ∃ t, s.buf.firstSet s.pos.toNat t := by
  by_cases hi : s.init = true
  · exact (unaryError_eq_none (hs.posLe hi)).1 h
  · simp [unaryError, hi] at h

theorem respond_readUnary_soundly (hs : s.Sound) (h : unaryError s = none) (r : Response) :
    AnswersSoundly i s (respond r (readUnary s).2) := by
  obtain ⟨hi, t, ht⟩ := exists_firstSet_of_unaryError hs h
  rw [readUnary_eq (hs.loaded hi) hs.lz8 ht]
  obtain ⟨hle, hlt, -, -⟩ := ht
  exact respond_movedTo_soundly hs hi (by omega) hlt (by omega) r

/-- A decode that does not run out of buffer consumes its leading byte (41_cursor_varlen.md R121). -/
theorem Memory.utf8Ending_consumes (m : Memory) (w kMax q : Nat) :
    (m.utf8Ending w kMax q).1 = .endOfStream ∨ 1 ≤ (m.utf8Ending w kMax q).2 := by
  rw [Memory.utf8Ending]
  split
  · exact .inl rfl
  · refine .inr ?_
    cases leadByte (m.octet q) with
    | none => exact le_rfl
    | some kv =>
      dsimp only
      split
      · exact le_rfl
      · exact Nat.le_add_left 1 _

theorem respond_afterBytes_soundly (hs : s.Sound) (hi : s.init = true) {n : Nat} (hn : 1 ≤ n)
    (hle : s.pos.toNat + 8 * n ≤ s.bitLen) (r : Response) : AnswersSoundly i s (respond r (s.afterBytes n)) := by
  rw [State.afterBytes, if_neg (by omega)]
  exact respond_movedTo_soundly hs hi (by omega) hle hn r

theorem utf8Respond_soundly (hs : s.Sound) (w kMax : Nat) (cast : BitVec w → BitVec w) :
    AnswersSoundly i s (utf8Respond w kMax cast s) := by
  by_cases hi : s.init = true
  · have hle := (s.buf.utf8Ending_le w kMax s.pos.toNat (hs.posLe hi)).1
    have hn := s.buf.utf8Ending_consumes w kMax s.pos.toNat
    rw [utf8Respond_eq cast (hs.loaded hi) hi]
    generalize s.buf.utf8Ending w kMax s.pos.toNat = ending at hle hn
    obtain ⟨e, n⟩ := ending
    cases e with
    | value v => exact respond_afterBytes_soundly hs hi (hn.resolve_left (by simp)) hle _
    | failure => exact respond_afterBytes_soundly hs hi (hn.resolve_left (by simp)) hle _
    | endOfStream =>
      refine raise_soundly _ ?_ rfl rfl
      rw [State.rollBackTo_init, State.afterBytes]
      split <;> rfl
  · rw [utf8Respond, if_pos (by simpa using hi)]
    exact raise_soundly _ rfl rfl rfl

theorem respond_created_soundly (hs : s.Sound) {q : Nat} (hi : i.isInit = true) (hq : q ≤ s.bitLen) (r : Response) :
    AnswersSoundly i s (respond r (s.created q)) := by
  have hlen := Memory.len_le_of_wf hs.bufWf
  have hp : (s.created q).pos.toNat = q := by
    rw [show (s.created q).pos = BitVec.ofNat 32 q from rfl, BitVec.toNat_ofNat, Nat.mod_eq_of_lt]
    simp only [State.bitLen] at hq
    omega
  exact ⟨s.created q, r, rfl, .moves rfl (by rwa [hp]) ⟨s.reloads, Nat.lt_succ_self _, rfl⟩ fun h => by
    rw [hi] at h; cases h⟩

theorem status_soundly (hi : i = .getpos ∨ i = .getla) (hc : i.consumes = false) : AnswersSoundly i s (exec i s) := by
  obtain ⟨r, hr⟩ := exec_status hi s
  exact hr ▸ respond_stays_soundly hc rfl rfl rfl r

theorem checksum_soundly (hi : i.isCursor = false) (hc : i.consumes = false) : AnswersSoundly i s (exec i s) := by
  obtain ⟨n, r, hr⟩ := exec_checksum hi s
  rw [show exec i s = respond r (s.countCrcReads n) from hr s.init s.pos s.la]
  exact respond_stays_soundly (s := s) (u := s.countCrcReads n) hc rfl rfl rfl r

end

/-- Every command leaves the cursor of a sound state where it was or at a reloaded position in the buffer (10_state.md
R22, R23). -/
theorem exec_soundly (i : Instr) {s : State} (hs : s.Sound) : AnswersSoundly i s (exec i s) := by
  cases i with
  | init bo =>
    rcases exec_init bo s with h | ⟨hle, h⟩
    · exact h s.init s.pos s.la ▸ raise_soundly _ rfl rfl rfl
    · exact h s.init s.pos s.la ▸ respond_created_soundly hs rfl hle _
  | seek n =>
    simp only [exec, execSeek]
    split
    · exact raise_soundly _ rfl rfl rfl
    split
    · exact raise_soundly _ rfl rfl rfl
    split
    · exact raise_soundly _ rfl rfl rfl
    · rename_i hi hn hle
      exact respond_advance_soundly hs (by simpa using hi) (by omega) (by omega) _
  | flush =>
    simp only [exec, execFlush]
    split
    · exact raise_soundly _ rfl rfl rfl
    split
    · exact respond_stays_soundly rfl rfl rfl rfl _
    · rename_i hi hr
      have hi : s.init = true := by simpa using hi
      have hle : s.pos.toNat ≤ 8 * s.buf.len := hs.posLe hi
      exact respond_advance_soundly hs hi (by omega) (by rw [State.bitLen]; omega) _
  | rdbit =>
    simp only [exec, execRdbit]
    split
    · exact raise_soundly _ rfl rfl rfl
    split
    · exact raise_soundly _ rfl rfl rfl
    · rename_i hi hle
      exact respond_advance_soundly hs (by simpa using hi) le_rfl (by omega) _
  | rdb n =>
    simp only [exec, execRdb]
    cases h : fieldError 32 n s with
    | some e => exact raise_soundly _ rfl rfl rfl
    | none => exact respond_readCore_soundly hs h _
  | rdbs n =>
    simp only [exec, execRdbs]
    cases h : fieldError 32 n s with
    | some e => exact raise_soundly _ rfl rfl rfl
    | none => exact respond_readCore_soundly hs h _
  | rdb64 n =>
    simp only [exec, execRdb64]
    cases h : fieldError 64 n s with
    | some e => exact raise_soundly _ rfl rfl rfl
    | none => exact respond_readCore64_soundly hs h _
  | rdb64s n =>
    simp only [exec, execRdb64s]
    cases h : fieldError 64 n s with
    | some e => exact raise_soundly _ rfl rfl rfl
    | none => exact respond_readCore64_soundly hs h _
  | rdun =>
    simp only [exec, execRdun]
    cases h : unaryError s with
    | some e => exact raise_soundly _ rfl rfl rfl
    | none => exact respond_readUnary_soundly hs h _
  | rduns =>
    simp only [exec, execRduns]
    cases h : unaryError s with
    | some e => exact raise_soundly _ rfl rfl rfl
    | none => exact respond_readUnary_soundly hs h _
  | rdu8 => exact utf8Respond_soundly hs 32 5 id
  | rdu8s => exact utf8Respond_soundly hs 32 5 signedPattern
  | rdu8l => exact utf8Respond_soundly hs 64 6 id
  | rdu8ls => exact utf8Respond_soundly hs 64 6 signedPattern
  | getpos => exact status_soundly (.inl rfl) rfl
  | getla => exact status_soundly (.inr rfl) rfl
  | crc8 off cnt => exact checksum_soundly rfl rfl
  | crc16 off cnt => exact checksum_soundly rfl rfl

/-- The same, of the state a command answers and of the one response it adds. -/
theorem exec_cursorAt {i : Instr} {s t : State} {r : Response} (hs : s.Sound) (h : exec i s = .next t)
    (hr : t.responses = s.responses ++ [r]) : s.CursorAt i t r := by
  obtain ⟨u, r', hu, hc⟩ := exec_soundly i hs
  obtain rfl := next_unique hu h
  obtain rfl := State.response_of_answer hr
  cases hc with
  | stays init pos la err => exact .stays init pos la err
  | moves init posLe lookahead mono => exact .moves init posLe lookahead mono

end Sys2Proof.Machine

/-! ## The steps and the invariant -/

namespace Sys2Proof.Machine

/-- A step is its command where the next word decodes (30_encoding.md R67). -/
theorem step_of_decode_ok {s : State} {c : Command} {i : Instr} (hf : s.program[s.k]? = some c)
    (hd : decode c = .ok i) : step s = exec i s := by
  simp only [step, fetch, hf, hd]

/-- A step raises IllegalCommand where it does not (30_encoding.md R65). -/
theorem step_of_decode_error {s : State} {c : Command} {e : DecodeError} (hf : s.program[s.k]? = some c)
    (hd : decode c = .error e) : step s = raise .illegalCommand s := by
  simp only [step, fetch, hf, hd]

/-- A step that answers has run a command or raised IllegalCommand. -/
theorem step_next {s t : State} (h : step s = .next t) :
    (∃ i, exec i s = .next t) ∨ t = s.erred 5 := by
  cases hf : s.program[s.k]? with
  | none => simp only [step, fetch, hf, reduceCtorEq] at h
  | some c =>
    cases hd : decode c with
    | ok i => exact .inl ⟨i, step_of_decode_ok hf hd ▸ h⟩
    | error e =>
      rw [step_of_decode_error hf hd] at h
      cases h
      exact .inr rfl

/-- A response added leaves the block as it was. -/
theorem State.Sound.answer {s : State} (hs : s.Sound) (r : Response) : (s.answer r).Sound :=
  ⟨hs.bufWf, hs.t8, hs.t16, hs.lz8, hs.posLe, hs.lookahead⟩

/-- Every command keeps a sound state sound (10_state.md R22, R23, R28). -/
theorem exec_sound {i : Instr} {s t : State} (hs : s.Sound) (h : exec i s = .next t) : t.Sound := by
  obtain ⟨u, r, rfl, he⟩ := exec_next h
  have hc : s.CursorAt i (u.answer r) r := exec_cursorAt hs h (by rw [State.answer_responses, he.keeps.responses])
  have hbuf : (u.answer r).buf = s.buf := he.keeps.buf
  have hdraws : (u.answer r).draws = s.draws := he.keeps.draws
  exact {
    bufWf := hbuf ▸ hs.bufWf
    t8 := he.keeps.t8.trans hs.t8
    t16 := he.keeps.t16.trans hs.t16
    lz8 := he.keeps.lz8.trans hs.lz8
    posLe := fun hi => by
      rw [State.bitLen, hbuf]
      exact hc.posLe_bitLen hs hi
    lookahead := fun hi => by
      rw [hbuf, hdraws]
      exact hc.exists_reload hs he.keeps.reloads hi }

/-- Every step keeps a sound state sound. -/
theorem step_sound {s t : State} (hs : s.Sound) (h : step s = .next t) : t.Sound := by
  rcases step_next h with ⟨i, hi⟩ | rfl
  · exact exec_sound hs hi
  · exact hs.answer _

/-- One more legal response for one more command keeps the run's bookkeeping (10_state.md R27). -/
theorem Ends.inStep {s u : State} {res : Result} {r : Response} (he : Ends s res u r) (hs : s.InStep)
    (hk : s.k < s.program.length) : (u.answer r).InStep where
  count := by simp [he.keeps.responses, he.keeps.k, hs.count]
  bound := by
    rw [State.answer_k, State.answer_program, he.keeps.k, he.keeps.program]
    exact hk
  legal := fun r' hr' => by
    rw [State.answer_responses, he.keeps.responses, List.mem_append, List.mem_singleton] at hr'
    rcases hr' with hr' | rfl
    · exact hs.legal r' hr'
    · exact he.legal

/-- Every step keeps the run's bookkeeping. -/
theorem step_inStep {s t : State} (hs : s.InStep) (h : step s = .next t) : t.InStep := by
  rcases step_ends s with ⟨-, hf⟩ | ⟨hk, u, r, he⟩
  · cases hf.symm.trans h
  · obtain rfl := next_unique he.next h
    exact he.inStep hs hk

/-- Settles O16: the block's part by `exec_sound`, the run's part by `step_inStep`. -/
theorem everyStepKeepsTheInvariant : Obligations.EveryStepKeepsTheInvariant :=
  fun _ _ hs h => ⟨step_sound hs.sound h, step_inStep hs.inStep h⟩

end Sys2Proof.Machine

/-! ## The statements on the state, the runs and the lookahead -/

namespace Sys2Proof.Machine

/-- The command put next is the next of the list (log 7). -/
theorem State.withCommand_next (s : State) (c : Command) :
    (s.withCommand c).program[(s.withCommand c).k]? = some c := by
  have hlen : (s.program.take s.k ++ List.replicate (s.k - s.program.length) c).length = s.k := by simp; omega
  show (s.program.take s.k ++ List.replicate (s.k - s.program.length) c ++ c :: s.program.drop (s.k + 1))[s.k]? = _
  rw [List.getElem?_append_right hlen.le, hlen, Nat.sub_self]
  rfl

/-- Settles O10: the placed command is fetched (`withCommand_next`), so the step is the one of its decoding. -/
theorem placedWordIsTheNextStep : Obligations.PlacedWordIsTheNextStep := by
  intro s nbits w
  have hf := s.withCommand_next (commandOfTableWord nbits w)
  rw [decodeTableWord]
  cases hd : decode (commandOfTableWord nbits w) with
  | ok j => exact ⟨fun i hi => Option.some.inj hi ▸ step_of_decode_ok hf hd, nofun⟩
  | error e => exact ⟨nofun, fun _ => step_of_decode_error hf hd⟩

/-- Settles O18: `step_ends` says which of the two a step is. -/
theorem onlyAnEndedRunStops : Obligations.OnlyAnEndedRunStops := by
  intro s
  rcases step_ends s with ⟨hle, hf⟩ | ⟨hlt, u, r, he⟩
  · exact ⟨⟨fun _ => hle, fun _ => hf⟩, fun hlt => by omega⟩
  · refine ⟨⟨fun hf => ?_, fun hle => by omega⟩, fun _ => ⟨u.answer r, he.next, ?_, ?_⟩⟩
    · cases hf.symm.trans he.next
    · rw [State.answer_k, he.keeps.k]
    · rw [State.answer_program, he.keeps.program]

/-- Settles O20: a checksum and INIT read no cursor register, and every other command raises NotInitialised. -/
theorem resetValuesCannotBeObserved : Obligations.ResetValuesCannotBeObserved := by
  intro i s t p l h0 ht
  cases hc : i.isCursor with
  | false =>
    obtain ⟨n, r, hr⟩ := exec_checksum hc s
    obtain rfl := next_unique (hr s.init s.pos s.la) ht
    exact ⟨_, hr s.init p l, fun h1 => absurd (h0.symm.trans h1) Bool.false_ne_true, fun _ => rfl⟩
  | true =>
    cases hi : i.isInit with
    | false =>
      rw [exec_eq_raise_of_init_false hc hi h0] at ht
      cases ht
      exact ⟨_, exec_eq_raise_of_init_false hc hi h0, fun h1 => absurd (h0.symm.trans h1) Bool.false_ne_true,
        fun _ => rfl⟩
    | true =>
      obtain ⟨bo, rfl⟩ := Instr.eq_init_of_isInit hi
      rcases exec_init bo s with h | ⟨-, h⟩
      · obtain rfl := next_unique (h s.init s.pos s.la) ht
        exact ⟨_, h s.init p l, fun h1 => absurd (h0.symm.trans h1) Bool.false_ne_true, fun _ => rfl⟩
      · obtain rfl := next_unique (h s.init s.pos s.la) ht
        exact ⟨_, h s.init p l, fun _ => rfl, nofun⟩

/-- No command but INIT writes `init` (10_state.md R21). -/
theorem exec_keeps_init {i : Instr} (hi : i.isInit = false) {s t : State} (h : exec i s = .next t) :
    t.init = s.init := by
  cases hc : i.isCursor with
  | false =>
    obtain ⟨n, r, hr⟩ := exec_checksum hc s
    obtain rfl := next_unique (hr s.init s.pos s.la) h
    rfl
  | true =>
    obtain ⟨u, r, hu, hs⟩ := exec_atCursor hc hi s
    obtain rfl := next_unique hu h
    exact hs.init

/-- INIT sets `init` unless it raises an error (10_state.md R21). -/
theorem exec_init_sets {bo : Int} {s t : State} {r : Response} (h : exec (.init bo) s = .next t)
    (hr : t.responses = s.responses ++ [r]) : t.init = if r.err = 0 then true else s.init := by
  rcases exec_init bo s with hx | ⟨-, hx⟩
  · obtain rfl := next_unique (hx s.init s.pos s.la) h
    obtain rfl : Response.error .invalidArgument = r := State.response_of_answer hr
    rfl
  · obtain rfl := next_unique (hx s.init s.pos s.la) h
    obtain rfl : Response.done = r := State.response_of_answer hr
    rfl

/-- Settles O24: INIT by `exec_init_sets`, the other commands by `exec_keeps_init`, the guard by
`exec_eq_raise_of_init_false`, and the checksums, which read no cursor register. -/
theorem initBitIsSetOnlyByInit : Obligations.InitBitIsSetOnlyByInit := by
  refine ⟨fun bo s t r => exec_init_sets, fun i s t hi => exec_keeps_init hi,
    fun i s hc hi h0 => exec_eq_raise_of_init_false hc hi h0, fun i s t b hc ht => ?_⟩
  obtain ⟨n, r, hr⟩ := exec_checksum hc s
  obtain rfl := next_unique (hr s.init s.pos s.la) ht
  exact hr b s.pos s.la

/-- Settles O25: the four clauses are read off where the command leaves the cursor (`exec_cursorAt`). -/
theorem positionIsMonotoneAndInRange : Obligations.PositionIsMonotoneAndInRange := by
  intro i s t r hs ht hr
  have hc := exec_cursorAt hs ht hr
  refine ⟨(exec_sound hs ht).posLe, fun hi => ?_, fun hcons hr0 => ?_, fun he => ?_⟩
  · cases hc with
    | stays init pos la err => rw [pos]
    | moves init posLe lookahead mono => exact (mono hi).le
  · cases hc with
    | stays init pos la err => exact absurd hr0 (err hcons)
    | moves init posLe lookahead mono => exact mono (Instr.isInit_of_consumes hcons)
  · obtain ⟨u, rfl, hends⟩ := exec_response ht hr
    obtain ⟨-, hpos, -⟩ := hends.precise he
    exact hpos

/-- No cursor command reads bytes for the CRC unit (20_memory.md R58). -/
theorem exec_crcReads {i : Instr} {s t : State} (h : exec i s = .next t) (hc : i.isCursor = true) :
    t.crcReads = s.crcReads := by
  cases hi : i.isInit with
  | false =>
    obtain ⟨u, r, hu, hs⟩ := exec_atCursor hc hi s
    obtain rfl := next_unique hu h
    exact hs.crcReads
  | true =>
    obtain ⟨bo, rfl⟩ := Instr.eq_init_of_isInit hi
    rcases exec_init bo s with hx | ⟨-, hx⟩
    · obtain rfl := next_unique (hx s.init s.pos s.la) h
      rfl
    · obtain rfl := next_unique (hx s.init s.pos s.la) h
      rfl

/-- Settles O26: the status reads answer at their own state, and a checksum command only counts its byte reads. -/
theorem statusAndChecksumLeaveTheCursor : Obligations.StatusAndChecksumLeaveTheCursor := by
  intro i s t ht
  refine ⟨fun hi => ?_, exec_crcReads ht⟩
  rw [← or_assoc] at hi
  rcases hi with hi | hi
  · obtain ⟨r, hr⟩ := exec_status hi s
    obtain rfl := next_unique hr ht
    exact ⟨rfl, rfl, rfl, rfl⟩
  · obtain ⟨n, r, hr⟩ := exec_checksum hi s
    obtain rfl := next_unique (hr s.init s.pos s.la) ht
    exact ⟨rfl, rfl, rfl, rfl⟩

/-- Settles O30: the lookahead after the command is a reload at `pos` (`exec_sound`), whose bits are known one by one. -/
theorem lookaheadHoldsTheNextStreamBits : Obligations.LookaheadHoldsTheNextStreamBits := by
  intro i s t hs ht hi
  obtain ⟨d, hd, hla⟩ := (exec_sound hs ht).lookahead hi
  rw [hla]
  exact ⟨d, hd, fun j hj => ⟨Memory.reload_bit_inside _ _ _ _ _ (by omega), Memory.reload_bit_past _ _ _ _ _ (by omega)⟩,
    fun j => Memory.reload_bit_low _ _ _ _ _⟩

/-- Settles O1: the step's own equation. -/
theorem stepRunsTheDecodedCommand : Obligations.StepRunsTheDecodedCommand :=
  fun _ _ _ => step_of_decode_ok

/-- An entry of a built checksum table (42_crc.md R140). -/
theorem tableAt_crcBuild (w poly : Nat) (b : Byte) : tableAt (crcBuild w poly) b = crcEntry w poly b.toNat := by
  simp [tableAt, crcBuild]

/-- Settles O12: the spot values are entries of the built tables. -/
theorem resetLeavesNoCursorAndTheTables : Obligations.ResetLeavesNoCursorAndTheTables := by
  simp only [Obligations.ResetLeavesNoCursorAndTheTables, State.reset, State.afterReset_init, State.afterReset_t8,
    State.afterReset_t16, State.afterReset_lz8, crc8Table, crc16Table, tableAt_crcBuild, tableAt_leadingZeroTable]
  decide

/-- Reset over a canonical buffer meets the invariant (10_state.md R29). -/
theorem State.afterReset_inv (p l : Word) {m : Memory} (c : List Command) (ds : List Byte) (n x : Nat)
    (hm : m.wf = true) : (State.afterReset p l m c ds n x).Inv where
  sound := ⟨hm, rfl, rfl, rfl, nofun, nofun⟩
  inStep := ⟨rfl, Nat.zero_le _, nofun⟩

/-- Settles O15: State.reset is one of the states of `State.afterReset_inv`. -/
theorem resetMeetsTheInvariant : Obligations.ResetMeetsTheInvariant :=
  ⟨State.afterReset_inv 0 0 [] [] 0 0 State.reset_buf_wf, fun p l _ c ds n x => State.afterReset_inv p l c ds n x⟩

end Sys2Proof.Machine

/-! SUPPORT. One effect of a command for all states that agree on the buffer and the cursor, whatever their draws, and
the statements on the memory and its ports that follow (20_memory.md). -/

namespace Sys2Proof.Machine

/-! ## The effect of a command -/

/-- What a command does to a state: the response it gives, the bit position it leaves the cursor at where it moves or
creates one, and its reads on the memory port (20_memory.md R50). -/
structure Effect where
  /-- The response. -/
  response : Response
  /-- The new position of the cursor; none where the cursor is left as it was. -/
  goesTo : Option Nat
  /-- The reloads made. -/
  reloads : Nat
  /-- The bytes the CRC unit has read. -/
  crcReads : Nat

/-- The cursor after a command: at the new position with a lookahead reloaded there, or as it was. -/
def State.landed (s : State) (n : Nat) : Option Nat → State
  | none => s.withReloads n
  | some q => { s with init := true }.movedTo q n

/-- The state a command of this effect answers. -/
def State.affected (s : State) (e : Effect) : State :=
  ((s.landed e.reloads e.goesTo).countCrcReads e.crcReads).answer e.response

theorem State.affected_reloads (s : State) (e : Effect) : (s.affected e).reloads = s.reloads + e.reloads := by
  obtain ⟨r, q, n, c⟩ := e
  cases q <;> rfl

/-- A cursor that moves on leaves `init` as it was, that is set. -/
theorem State.landed_some {s : State} (hi : s.init = true) (q n : Nat) : s.landed n (some q) = s.movedTo q n := by
  rw [State.landed, State.movedTo, State.movedTo, hi]

/-- `s'` is a sound state with the buffer of `s`, and with a cursor at the same position, or none, as in `s`. Its
lookahead and its draws may be others. -/
structure State.Alike (s s' : State) : Prop where
  /-- The other state is sound. -/
  sound : s'.Sound
  /-- The buffer is the same. -/
  buf : s'.buf = s.buf
  /-- A cursor exists in both or in none. -/
  init : s'.init = s.init
  /-- A cursor is at the same position. -/
  pos : s.init = true → s'.pos = s.pos

theorem State.Alike.refl {s : State} (hs : s.Sound) : s.Alike s := ⟨hs, rfl, rfl, fun _ => rfl⟩

/-- One command of one effect leaves alike states alike as far as `init` and `pos` go. -/
theorem State.Alike.affected {s s' : State} (h : s.Alike s') (e : Effect) :
    (s'.affected e).init = (s.affected e).init ∧
      ((s.affected e).init = true → (s'.affected e).pos = (s.affected e).pos) := by
  obtain ⟨r, q, n, c⟩ := e
  cases q with
  | none => exact ⟨h.init, h.pos⟩
  | some q => exact ⟨rfl, fun _ => rfl⟩

/-- The meaning `f` has one effect on all states alike to `s`, with at most `limit` reloads and at most `L` bytes read
by the CRC unit. -/
def HasEffect (limit : Nat) (f : State → Result) (s : State) : Prop :=
  ∃ e : Effect, e.reloads ≤ limit ∧ e.crcReads ≤ s.buf.len ∧ ∀ s', s.Alike s' → f s' = .next (s'.affected e)

section
variable {limit : Nat} {f : State → Result} {s : State}

/-- A meaning that answers with the cursor as it was has an effect. -/
theorem HasEffect.stays (r : Response) {n : Nat} (hn : n ≤ limit)
    (h : ∀ s', s.Alike s' → f s' = respond r (s'.withReloads n)) : HasEffect limit f s :=
  ⟨⟨r, none, n, 0⟩, hn, Nat.zero_le _, h⟩

/-- A meaning that raises an error has an effect. -/
theorem HasEffect.raises (e : ErrorKind) (h : ∀ s', s.Alike s' → f s' = raise e s') : HasEffect limit f s :=
  .stays (.error e) (Nat.zero_le _) h

/-- A meaning that moves the cursor has an effect, if neither the response nor the new position depends on draws. -/
theorem HasEffect.moves (hi : s.init = true) (r : Response) (q : Nat) {n : Nat} (hn : n ≤ limit)
    (h : ∀ s', s.Alike s' → s'.Loaded → f s' = respond r (s'.movedTo q n)) : HasEffect limit f s := by
  refine ⟨⟨r, some q, n, 0⟩, hn, Nat.zero_le _, fun s' ha => ?_⟩
  have hi' : s'.init = true := ha.init.trans hi
  rw [h s' ha (ha.sound.loaded hi'), State.affected, State.landed_some hi']
  rfl

/-! ## The effects of the reads -/

theorem State.Alike.bitLen {s' : State} (h : s.Alike s') : s'.bitLen = s.bitLen := by
  rw [State.bitLen, State.bitLen, h.buf]

theorem State.Alike.fieldError {s' : State} (h : s.Alike s') (max n : Nat) :
    Machine.fieldError max n s' = Machine.fieldError max n s := by
  by_cases hi : s.init = true
  · simp only [Machine.fieldError, h.init, h.bitLen, h.pos hi]
  · simp only [Machine.fieldError, h.init, hi, if_true]

theorem State.Alike.unaryError {s' : State} (h : s.Alike s') : Machine.unaryError s' = Machine.unaryError s := by
  by_cases hi : s.init = true
  · simp only [Machine.unaryError, h.init, h.bitLen, h.buf, h.pos hi]
  · simp only [Machine.unaryError, h.init, hi, if_true]

/-- The shape of the fixed-width and the unary reads: a check, then the read. -/
def checkedRead (check : State → Option ErrorKind) (read : State → Result) (s : State) : Result :=
  match check s with
  | some e => raise e s
  | none => read s

theorem checkedRead_of_some {check : State → Option ErrorKind} {e : ErrorKind} (h : check s = some e)
    (read : State → Result) : checkedRead check read s = raise e s := by
  rw [checkedRead, h]

theorem checkedRead_of_none {check : State → Option ErrorKind} (h : check s = none) (read : State → Result) :
    checkedRead check read s = read s := by
  rw [checkedRead, h]

/-- A checked read has an effect if its check sees no draw and the read has an effect where the check passes. -/
theorem HasEffect.checkedRead {check : State → Option ErrorKind} (hc : ∀ s', s.Alike s' → check s' = check s)
    (hf : check s = none → HasEffect limit f s) : HasEffect limit (checkedRead check f) s := by
  cases h : check s with
  | some e => exact .raises e fun s' ha => checkedRead_of_some ((hc s' ha).trans h) f
  | none =>
    obtain ⟨e, hr, hx, he⟩ := hf h
    exact ⟨e, hr, hx, fun s' ha => (checkedRead_of_none ((hc s' ha).trans h) f).trans (he s' ha)⟩

/-- RDB and RDBS answer a field of the buffer (40_cursor_fixed.md R86, R87). -/
theorem HasEffect.rdb (n : Nat) (cast : Word → Word) : HasEffect (if n ≤ 24 then 1 else 2)
    (Machine.checkedRead (fieldError 32 n) fun s => respond (.value (cast (readCore n s).1)) (readCore n s).2) s := by
  refine .checkedRead (fun _ h => h.fieldError 32 n) fun hf => ?_
  obtain ⟨hi, ⟨-, h32⟩, hk⟩ := fieldError_eq_none.1 hf
  refine .moves hi (.value (cast (BitVec.ofNat 32 (s.buf.field s.pos.toNat n)))) (s.pos.toNat + n) le_rfl
    fun s' h hl => ?_
  rw [readCore_eq hl h32 (by rwa [h.pos hi, h.bitLen]), h.buf, h.pos hi]

/-- RDB64 and RDB64S answer a field of the buffer (40_cursor_fixed.md R89, R90). -/
theorem HasEffect.rdb64 (n : Nat) (cast : Long → Long) : HasEffect 3
    (Machine.checkedRead (fieldError 64 n) fun s => respond (.value (cast (readCore64 n s).1)) (readCore64 n s).2)
    s := by
  refine .checkedRead (fun _ h => h.fieldError 64 n) fun hf => ?_
  obtain ⟨hi, ⟨h1, h64⟩, hk⟩ := fieldError_eq_none.1 hf
  refine .moves hi (.value (cast (BitVec.ofNat 64 (s.buf.field s.pos.toNat n)))) (s.pos.toNat + n)
    (show (n + 23) / 24 ≤ 3 by omega) fun s' h hl => ?_
  rw [readCore64_eq hl h1 h64 (by rwa [h.pos hi, h.bitLen]), h.buf, h.pos hi]

/-- RDUN and RDUNS answer the distance to the first set bit of the buffer (41_cursor_varlen.md R112, R113). -/
theorem HasEffect.rdun (hs : s.Sound) (cast : Word → Word) : HasEffect (s.buf.len + 1)
    (Machine.checkedRead unaryError fun s => respond (.value (cast (readUnary s).1)) (readUnary s).2) s := by
  refine .checkedRead (fun _ h => h.unaryError) fun hf => ?_
  obtain ⟨hi, t, ht⟩ := exists_firstSet_of_unaryError hs hf
  have hlt : t < 8 * s.buf.len := ht.2.1
  refine .moves hi (.value (cast (BitVec.ofNat 32 (t - s.pos.toNat)))) (t + 1)
    (show (t - s.pos.toNat) / 8 + 1 ≤ s.buf.len + 1 by omega) fun s' h hl => ?_
  rw [readUnary_eq hl h.sound.lz8 (by rwa [h.buf, h.pos hi]), h.pos hi]

/-- A decode rolled back has made its reloads in vain (41_cursor_varlen.md R121). -/
theorem State.afterBytes_rollBackTo (s : State) (n : Nat) : (s.afterBytes n).rollBackTo s = s.withReloads n := by
  rw [State.afterBytes]
  split
  · subst n; rfl
  · rfl

theorem State.afterBytes_eq_movedTo (s : State) {n : Nat} (hn : 1 ≤ n) :
    s.afterBytes n = s.movedTo (s.pos.toNat + 8 * n) n := by
  rw [State.afterBytes, if_neg (by omega)]

/-- The UTF-8-like reads end as the bytes of the buffer say (41_cursor_varlen.md R121). -/
theorem HasEffect.utf8 (hs : s.Sound) (hi : s.init = true) (w kMax : Nat) (cast : BitVec w → BitVec w) :
    HasEffect 7 (utf8Respond w kMax cast) s := by
  have hle := (s.buf.utf8Ending_le w kMax s.pos.toNat (hs.posLe hi)).2
  have hn := s.buf.utf8Ending_consumes w kMax s.pos.toNat
  cases hE : s.buf.utf8Ending w kMax s.pos.toNat with
  | mk e n =>
    rw [hE] at hle hn
    cases e with
    | value v =>
      refine .moves hi (.value (cast v)) (s.pos.toNat + 8 * n) hle fun s' h hl => ?_
      rw [utf8Respond_eq cast hl (h.init.trans hi), h.buf, h.pos hi, hE,
        s'.afterBytes_eq_movedTo (hn.resolve_left nofun), h.pos hi]
    | failure =>
      refine .moves hi (.failed (cast (BitVec.allOnes w))) (s.pos.toNat + 8 * n) hle fun s' h hl => ?_
      rw [utf8Respond_eq cast hl (h.init.trans hi), h.buf, h.pos hi, hE,
        s'.afterBytes_eq_movedTo (hn.resolve_left nofun), h.pos hi]
    | endOfStream =>
      refine .stays (.error .endOfStream) hle fun s' h => ?_
      rw [utf8Respond_eq cast (h.sound.loaded (h.init.trans hi)) (h.init.trans hi), h.buf, h.pos hi, hE]
      exact congrArg (raise .endOfStream) (s'.afterBytes_rollBackTo n)

/-! ## The effects of the other commands -/

/-- Without a cursor every cursor command but INIT has the one effect of an error. -/
theorem HasEffect.noCursor {i : Instr} (hc : i.isCursor = true) (hi : i.isInit = false) (h0 : s.init = false) :
    HasEffect limit (exec i) s :=
  .raises .notInitialised fun _ h => exec_eq_raise_of_init_false hc hi (h.init.trans h0)

/-- A checksum command gives the same response and reads the same number of bytes, at most `L`, in all states with the
buffer and the tables of `s` (20_memory.md R50, R58). -/
theorem exec_checksum_eq {i : Instr} (hc : i.isCursor = false) (s : State) :
    ∃ n r, n ≤ s.buf.len ∧ ∀ s' : State, s'.buf = s.buf → s'.t8 = s.t8 → s'.t16 = s.t16 →
      exec i s' = .next ((s'.countCrcReads n).answer r) := by
  cases i with
  | crc8 off cnt =>
    by_cases h : s.buf.len < off + cnt
    · refine ⟨0, .error .outOfRange, Nat.zero_le _, fun s' hb _ _ => ?_⟩
      exact if_pos (hb ▸ h)
    · refine ⟨cnt, .value (crcLoop (crc8Step s.t8) s.buf off cnt 0), by omega, fun s' hb h8 _ => ?_⟩
      rw [← hb] at h
      rw [← hb, ← h8]
      exact if_neg h
  | crc16 off cnt =>
    by_cases h : s.buf.len < off + cnt
    · refine ⟨0, .error .outOfRange, Nat.zero_le _, fun s' hb _ _ => ?_⟩
      exact if_pos (hb ▸ h)
    · refine ⟨cnt, .value (crcLoop (crc16Step s.t16) s.buf off cnt 0), by omega, fun s' hb _ h16 => ?_⟩
      rw [← hb] at h
      rw [← hb, ← h16]
      exact if_neg h
  | init | seek | flush | rdbit | rdb | rdbs | rdb64 | rdb64s | rdun | rduns | rdu8 | rdu8s | rdu8l | rdu8ls
  | getpos | getla => cases hc

theorem HasEffect.checksum {i : Instr} (hs : s.Sound) (hc : i.isCursor = false) : HasEffect limit (exec i) s := by
  obtain ⟨n, r, hn, h⟩ := exec_checksum_eq hc s
  exact ⟨⟨r, none, 0, n⟩, Nat.zero_le _, hn, fun s' ha =>
    h s' ha.buf (ha.sound.t8.trans hs.t8.symm) (ha.sound.t16.trans hs.t16.symm)⟩

/-- A cursor created within the buffer is one moved there by one reload. -/
theorem State.Sound.created_eq (hs : s.Sound) {q : Nat} (hq : q ≤ s.bitLen) :
    s.created q = s.landed 1 (some q) := by
  have hlen := Memory.len_le_of_wf hs.bufWf
  have hp : (BitVec.ofNat 32 q).toNat = q := by
    rw [BitVec.toNat_ofNat, Nat.mod_eq_of_lt]
    rw [State.bitLen] at hq
    omega
  simp only [State.created, State.setPos, State.reload, State.landed, State.movedTo, hp, Nat.add_sub_cancel]

/-- INIT looks at nothing but the buffer's length (40_cursor_fixed.md R82). -/
theorem HasEffect.init (bo : Int) : HasEffect 1 (exec (.init bo)) s := by
  by_cases h : s.buf.len = 0 ∨ bo < 0
  · exact .raises .invalidArgument fun s' ha => if_pos (ha.buf ▸ h)
  by_cases h' : (s.bitLen : Int) < bo
  · exact .raises .invalidArgument fun s' ha => (if_neg (ha.buf ▸ h)).trans (if_pos (ha.bitLen ▸ h'))
  · refine ⟨⟨.done, some bo.toNat, 1, 0⟩, le_rfl, Nat.zero_le _, fun s' ha => ?_⟩
    refine (if_neg (ha.buf ▸ h)).trans ((if_neg (ha.bitLen ▸ h')).trans ?_)
    have hq : bo.toNat ≤ s'.bitLen := by rw [ha.bitLen]; omega
    exact congrArg (respond .done) (ha.sound.created_eq hq)

/-- A seek within the buffer is a move by one reload (40_cursor_fixed.md R80). -/
theorem HasEffect.advances (hi : s.init = true) (r : Response) {k : Nat} (hk : s.pos.toNat + k ≤ s.bitLen)
    (h : ∀ s', s.Alike s' → s'.Loaded → f s' = respond r (s'.advance k)) : HasEffect 1 f s := by
  refine .moves hi r (s.pos.toNat + k) le_rfl fun s' ha hl => ?_
  rw [h s' ha hl, hl.advance (by rwa [ha.pos hi, ha.bitLen]), ha.pos hi]

/-- The top bit of a lookahead is the next stream bit (40_cursor_fixed.md R85). -/
theorem State.Loaded.topBit (hl : s.Loaded) (hk : s.pos.toNat + 1 ≤ s.bitLen) :
    s.la.extractLsb' 31 1 = BitVec.ofBool (s.buf.streamBit s.pos.toNat) := by
  obtain ⟨d, hd⟩ := hl.window
  refine BitVec.eq_of_getLsbD_eq fun j hj => ?_
  obtain rfl : j = 0 := by omega
  have hbit := s.buf.reload_bit_inside s.draws d s.pos.toNat 0 (by omega) hk
  rw [← hd] at hbit
  simpa using hbit

/-- Every command but GETLA has one effect on all states alike: no draw reaches its response, `init`, `pos` or the
number of its reads on the memory port (20_memory.md R41, R46, R50). -/
theorem exec_hasEffect {i : Instr} (hg : i ≠ .getla) (hs : s.Sound) :
    HasEffect (maxReloads s.buf.len i) (exec i) s := by
  cases hc : i.isCursor with
  | false => exact .checksum hs hc
  | true =>
  cases hn : i.isInit with
  | true =>
    obtain ⟨bo, rfl⟩ := Instr.eq_init_of_isInit hn
    exact .init bo
  | false =>
  cases hi : s.init with
  | false => exact .noCursor hc hn hi
  | true =>
  have h0 : ∀ {s'}, s.Alike s' → ¬ s'.init = false := fun h => by simp [h.init, hi]
  cases i with
  | init bo => cases hn
  | crc8 off cnt => cases hc
  | crc16 off cnt => cases hc
  | getla => cases hg rfl
  | seek n =>
    by_cases hle : n ≤ 0
    · exact .raises .outOfRange fun s' h => (if_neg (h0 h)).trans (if_pos hle)
    by_cases hend : (s.bitLen : Int) < s.pos.toNat + n
    · refine .raises .endOfStream fun s' h => ?_
      exact (if_neg (h0 h)).trans ((if_neg hle).trans (if_pos (by rwa [h.bitLen, h.pos hi])))
    · refine .advances (k := n.toNat) hi .done (by omega) fun s' h _ => ?_
      exact (if_neg (h0 h)).trans ((if_neg hle).trans (if_neg (by rwa [h.bitLen, h.pos hi])))
  | flush =>
    by_cases hal : s.pos.toNat % 8 = 0
    · exact .stays .done (Nat.zero_le _) fun s' h => (if_neg (h0 h)).trans (if_pos (by rwa [h.pos hi]))
    · have hle : s.pos.toNat ≤ 8 * s.buf.len := hs.posLe hi
      have hk : s.pos.toNat + (8 - s.pos.toNat % 8) ≤ 8 * s.buf.len := by omega
      refine .advances hi .done hk fun s' h _ => ?_
      rw [← h.pos hi] at hal ⊢
      exact (if_neg (h0 h)).trans (if_neg hal)
  | rdbit =>
    by_cases hend : s.bitLen < s.pos.toNat + 1
    · exact .raises .endOfStream fun s' h => (if_neg (h0 h)).trans (if_pos (by rwa [h.bitLen, h.pos hi]))
    · refine .advances (k := 1) hi (.value (BitVec.ofBool (s.buf.streamBit s.pos.toNat))) (by omega) fun s' h hl => ?_
      rw [← h.bitLen, ← h.pos hi] at hend
      rw [← h.buf, ← h.pos hi, ← hl.topBit (by omega)]
      exact (if_neg (h0 h)).trans (if_neg hend)
  | rdb n => exact .rdb n id
  | rdbs n => exact .rdb n fun u => signExtend32 u n
  | rdb64 n => exact .rdb64 n id
  | rdb64s n => exact .rdb64 n fun x => signExtend64 x n
  | rdun => exact .rdun hs id
  | rduns => exact .rdun hs zigzag
  | rdu8 => exact .utf8 hs hi 32 5 id
  | rdu8s => exact .utf8 hs hi 32 5 signedPattern
  | rdu8l => exact .utf8 hs hi 64 6 id
  | rdu8ls => exact .utf8 hs hi 64 6 signedPattern
  | getpos =>
    exact .stays (.value s.pos) (Nat.zero_le _) fun s' h => (if_neg (h0 h)).trans (by rw [h.pos hi]; rfl)

end

/-- Settles O29: both states are alike to the first, so the command has one effect on them (`exec_hasEffect`). -/
theorem drawsNeverReachAnAnswer : Obligations.DrawsNeverReachAnAnswer := by
  intro i s s' t t' r r' hs hs' hg hbuf hinit hpos ht ht' hr hr'
  have ha : s.Alike s' := ⟨hs', hbuf.symm, hinit.symm, fun hi => (hpos hi).symm⟩
  obtain ⟨e, -, -, he⟩ := exec_hasEffect hg hs
  obtain rfl := next_unique (he s (.refl hs)) ht
  obtain rfl := next_unique (he s' ha) ht'
  have heq : e.response = r := State.response_of_answer hr
  have heq' : e.response = r' := State.response_of_answer hr'
  obtain ⟨hinit', hpos'⟩ := ha.affected e
  exact ⟨heq.symm.trans heq', hinit'.symm, fun hi => (hpos' hi).symm⟩

/-! ## The reads on the memory port -/

/-- No command makes more reloads than its bound (20_memory.md R50, 70_reset_and_hazards.md R183). -/
theorem exec_reloads_le {i : Instr} {s t : State} (hs : s.Sound) (h : exec i s = .next t) :
    t.reloads ≤ s.reloads + maxReloads s.buf.len i := by
  by_cases hg : i = .getla
  · obtain ⟨r, hr⟩ := exec_status (.inr hg) s
    obtain rfl := next_unique hr h
    exact Nat.le_add_right _ _
  · obtain ⟨e, hle, -, he⟩ := exec_hasEffect hg hs
    obtain rfl := next_unique (he s (.refl hs)) h
    rw [State.affected_reloads]
    omega

/-- No command has the CRC unit read more than the buffer (20_memory.md R50). -/
theorem exec_crcReads_le {i : Instr} {s t : State} (h : exec i s = .next t) :
    t.crcReads ≤ s.crcReads + s.buf.len := by
  cases hc : i.isCursor with
  | true => exact (exec_crcReads h hc).trans_le (Nat.le_add_right _ _)
  | false =>
    obtain ⟨n, r, hn, hr⟩ := exec_checksum_eq hc s
    obtain rfl := next_unique (hr s rfl rfl rfl) h
    exact Nat.add_le_add_left hn _

/-- Settles O27: the counters do not go back (`exec_next`), and each has its bound. -/
theorem portReadsAreBounded : Obligations.PortReadsAreBounded := by
  intro i s t hs ht
  have hr := exec_reloads_le hs ht
  have hc := exec_crcReads_le ht
  obtain ⟨u, r, rfl, he⟩ := exec_next ht
  exact ⟨he.keeps.reloads, hr, he.keeps.crcReads, hc⟩

/-! ## The checksum unit beside the cursor -/

/-- The state with these entries of the run's bookkeeping: the CRC unit's reads, the index and the responses. -/
def State.booked (s : State) (c k : Nat) (rs : List Response) : State :=
  { s with crcReads := c, k := k, responses := rs }

/-- At `s` the meaning `f` answers the same and moves the cursor alike, whatever the run's bookkeeping holds. -/
def IgnoresBooks (f : State → Result) (s : State) : Prop :=
  ∃ (u : State) (r : Response), ∀ c k rs, f (s.booked c k rs) = .next ((u.booked c k rs).answer r)

/-- A read gives the same value and moves the cursor alike, whatever the run's bookkeeping holds. -/
def ReadIgnoresBooks {α : Type} (read : State → α × State) : Prop :=
  ∀ s c k rs, read (s.booked c k rs) = ((read s).1, (read s).2.booked c k rs)

theorem readCore_ignoresBooks (n : Nat) : ReadIgnoresBooks (readCore n) := by
  intro s c k rs
  by_cases h : n ≤ 24
  · simp only [readCore, if_pos h]
    rfl
  · simp only [readCore, if_neg h]
    rfl

theorem readChunks_ignoresBooks (fuel m : Nat) (x : Long) : ReadIgnoresBooks (readChunks fuel m x) := by
  intro s c k rs
  induction fuel generalizing m x s with
  | zero => rfl
  | succ fuel ih =>
    by_cases h : m = 0
    · simp only [readChunks, if_pos h]
    · simp only [readChunks, if_neg h, readCore_ignoresBooks _ s c k rs, ih]

theorem skipZeroBytes_ignoresBooks (fuel : Nat) (count : Word) : ReadIgnoresBooks (skipZeroBytes fuel count) := by
  intro s c k rs
  induction fuel generalizing count s with
  | zero => rfl
  | succ fuel ih =>
    by_cases h : topByte s.la = 0
    · exact (if_pos h).trans ((ih (count + 8) (s.advance 8)).trans (by rw [skipZeroBytes, if_pos h]))
    · exact (if_neg h).trans (by rw [skipZeroBytes, if_neg h])

theorem readUnary_ignoresBooks : ReadIgnoresBooks readUnary := by
  intro s c k rs
  have h := skipZeroBytes_ignoresBooks (s.buf.len + 1) 0 s c k rs
  rw [readUnary, show (s.booked c k rs).buf = s.buf from rfl, h]
  rfl

theorem readByte_booked (s : State) (c k : Nat) (rs : List Response) :
    readByte (s.booked c k rs) = (readByte s).map fun bt => (bt.1, bt.2.booked c k rs) := by
  by_cases h : s.bitLen < s.pos.toNat + 8
  · rw [readByte, readByte, if_pos h]
    exact if_pos h
  · rw [readByte, readByte, if_neg h, readCore_ignoresBooks 8 s c k rs]
    exact if_neg h

theorem utf8Continue_ignoresBooks {w : Nat} (j : Nat) (v : BitVec w) : ReadIgnoresBooks (utf8Continue j v) := by
  intro s c k rs
  induction j generalizing v s with
  | zero => rfl
  | succ j ih =>
    rw [utf8Continue, utf8Continue, readByte_booked]
    cases readByte s with
    | none => rfl
    | some bt =>
      dsimp only [Option.map_some]
      split
      · exact ih _ _
      · rfl

theorem utf8Decode_ignoresBooks (w kMax : Nat) : ReadIgnoresBooks (utf8Decode w kMax) := by
  intro s c k rs
  rw [utf8Decode, utf8Decode, readByte_booked]
  cases readByte s with
  | none => rfl
  | some bt =>
    dsimp only [Option.map_some]
    cases leadByte bt.1 with
    | none => rfl
    | some jv =>
      dsimp only
      split
      · rfl
      · exact utf8Continue_ignoresBooks _ _ _ _ _ _

section
variable {s : State}

/-- A meaning that answers at the state it is run in ignores the bookkeeping. -/
theorem IgnoresBooks.stays (r : Response) {f : State → Result}
    (h : ∀ c k rs, f (s.booked c k rs) = respond r (s.booked c k rs)) : IgnoresBooks f s := ⟨s, r, h⟩

/-- A meaning that raises an error ignores the bookkeeping. -/
theorem IgnoresBooks.raises (e : ErrorKind) {f : State → Result}
    (h : ∀ c k rs, f (s.booked c k rs) = raise e (s.booked c k rs)) : IgnoresBooks f s := ⟨s, .error e, h⟩

/-- A meaning that seeks ignores the bookkeeping. -/
theorem IgnoresBooks.advances (n : Nat) (r : Response) {f : State → Result}
    (h : ∀ c k rs, f (s.booked c k rs) = respond r ((s.booked c k rs).advance n)) : IgnoresBooks f s :=
  ⟨s.advance n, r, h⟩

/-- A checked read ignores the bookkeeping, as its check and its read do. -/
theorem IgnoresBooks.checkedRead {check : State → Option ErrorKind} {α : Type} {read : State → α × State}
    (r : α → Response) (hc : ∀ c k rs, check (s.booked c k rs) = check s) (hr : ReadIgnoresBooks read) :
    IgnoresBooks (checkedRead check fun σ => respond (r (read σ).1) (read σ).2) s := by
  cases h : check s with
  | some e => exact .raises e fun c k rs => checkedRead_of_some ((hc c k rs).trans h) _
  | none =>
    refine ⟨(read s).2, r (read s).1, fun c k rs => ?_⟩
    rw [checkedRead_of_none ((hc c k rs).trans h), hr]
    rfl

theorem IgnoresBooks.utf8 (w kMax : Nat) (cast : BitVec w → BitVec w) :
    IgnoresBooks (utf8Respond w kMax cast) s := by
  by_cases h : s.init = false
  · exact .raises .notInitialised fun _ _ _ => if_pos h
  have hi : ∀ c k rs, ¬ (s.booked c k rs).init = false := fun _ _ _ => h
  cases hd : utf8Decode w kMax s with
  | mk e t =>
    have hx : ∀ c k rs, utf8Decode w kMax (s.booked c k rs) = (e, t.booked c k rs) := fun c k rs => by
      rw [utf8Decode_ignoresBooks, hd]
    cases e with
    | value v => exact ⟨t, .value (cast v), fun c k rs => by rw [utf8Respond, if_neg (hi c k rs), hx]; rfl⟩
    | failure =>
      exact ⟨t, .failed (cast (BitVec.allOnes w)), fun c k rs => by rw [utf8Respond, if_neg (hi c k rs), hx]; rfl⟩
    | endOfStream =>
      exact ⟨t.rollBackTo s, .error .endOfStream, fun c k rs => by rw [utf8Respond, if_neg (hi c k rs), hx]; rfl⟩

end

/-- No cursor command reads the run's bookkeeping (20_memory.md R58). -/
theorem exec_ignoresBooks {i : Instr} (hc : i.isCursor = true) (s : State) : IgnoresBooks (exec i) s := by
  by_cases hi : s.init = false ∧ i.isInit = false
  · exact .raises .notInitialised fun _ _ _ => exec_eq_raise_of_init_false hc hi.2 hi.1
  have h0 : i.isInit = false → ¬ s.init = false := fun hn h => hi ⟨h, hn⟩
  cases i with
  | crc8 off cnt => cases hc
  | crc16 off cnt => cases hc
  | init bo =>
    by_cases h : s.buf.len = 0 ∨ bo < 0
    · exact .raises .invalidArgument fun _ _ _ => if_pos h
    by_cases h' : (s.bitLen : Int) < bo
    · exact .raises .invalidArgument fun _ _ _ => (if_neg h).trans (if_pos h')
    · exact ⟨s.created bo.toNat, .done, fun _ _ _ => (if_neg h).trans (if_neg h')⟩
  | seek n =>
    by_cases hn : n ≤ 0
    · exact .raises .outOfRange fun _ _ _ => (if_neg (h0 rfl)).trans (if_pos hn)
    by_cases hend : (s.bitLen : Int) < s.pos.toNat + n
    · exact .raises .endOfStream fun _ _ _ => (if_neg (h0 rfl)).trans ((if_neg hn).trans (if_pos hend))
    · exact .advances n.toNat .done fun _ _ _ => (if_neg (h0 rfl)).trans ((if_neg hn).trans (if_neg hend))
  | flush =>
    by_cases hal : s.pos.toNat % 8 = 0
    · exact .stays .done fun _ _ _ => (if_neg (h0 rfl)).trans (if_pos hal)
    · exact .advances (8 - s.pos.toNat % 8) .done fun _ _ _ => (if_neg (h0 rfl)).trans (if_neg hal)
  | rdbit =>
    by_cases hend : s.bitLen < s.pos.toNat + 1
    · exact .raises .endOfStream fun _ _ _ => (if_neg (h0 rfl)).trans (if_pos hend)
    · exact .advances 1 (.value (s.la.extractLsb' 31 1)) fun _ _ _ => (if_neg (h0 rfl)).trans (if_neg hend)
  | rdb n => exact .checkedRead .value (fun _ _ _ => rfl) (readCore_ignoresBooks n)
  | rdbs n => exact .checkedRead (fun u => .value (signExtend32 u n)) (fun _ _ _ => rfl) (readCore_ignoresBooks n)
  | rdb64 n => exact .checkedRead .value (fun _ _ _ => rfl) (readChunks_ignoresBooks 3 n 0)
  | rdb64s n =>
    exact .checkedRead (fun x => .value (signExtend64 x n)) (fun _ _ _ => rfl) (readChunks_ignoresBooks 3 n 0)
  | rdun => exact .checkedRead .value (fun _ _ _ => rfl) readUnary_ignoresBooks
  | rduns => exact .checkedRead (fun v => .value (zigzag v)) (fun _ _ _ => rfl) readUnary_ignoresBooks
  | rdu8 => exact .utf8 32 5 id
  | rdu8s => exact .utf8 32 5 signedPattern
  | rdu8l => exact .utf8 64 6 id
  | rdu8ls => exact .utf8 64 6 signedPattern
  | getpos => exact .stays (.value s.pos) fun _ _ _ => if_neg (h0 rfl)
  | getla => exact .stays (.value s.la) fun _ _ _ => if_neg (h0 rfl)

/-- No command writes what a checksum is computed from (20_memory.md R47). -/
theorem exec_keeps_checksumInputs {i : Instr} {s t : State} (h : exec i s = .next t) :
    t.buf = s.buf ∧ t.t8 = s.t8 ∧ t.t16 = s.t16 := by
  obtain ⟨u, r, rfl, he⟩ := exec_next h
  exact ⟨he.keeps.buf, he.keeps.t8, he.keeps.t16⟩

/-- Two commands that answer, one after the other. -/
theorem execAll_pair {i j : Instr} {s t u : State} (hi : exec i s = .next t) (hj : exec j t = .next u) :
    execAll [i, j] s = .next u := by
  simp only [execAll, hi, hj]

/-- Settles O28: a checksum command sees neither the cursor nor the bookkeeping (`exec_checksum_eq`), a cursor command
neither the CRC unit's reads nor the bookkeeping (`exec_ignoresBooks`). -/
theorem checksumAndCursorCommandsCommute : Obligations.ChecksumAndCursorCommandsCommute := by
  intro i j s hi hj
  obtain ⟨n, ri, -, hcrc⟩ := exec_checksum_eq hi s
  obtain ⟨u, rj, hcur⟩ := exec_ignoresBooks hj s
  have hi₁ : exec i s = .next ((s.countCrcReads n).answer ri) := hcrc s rfl rfl rfl
  have hj₂ : exec j ((s.countCrcReads n).answer ri) =
      .next ((u.booked (s.crcReads + n) (s.k + 1) (s.responses ++ [ri])).answer rj) := hcur _ _ _
  have hj₁ : exec j s = .next ((u.booked s.crcReads s.k s.responses).answer rj) := hcur _ _ _
  obtain ⟨hbuf, h8, h16⟩ := exec_keeps_checksumInputs hj₁
  exact ⟨_, _, ri, rj, execAll_pair hi₁ hj₂, execAll_pair hj₁ (hcrc _ hbuf h8 h16), List.append_assoc _ _ _,
    List.append_assoc _ _ _, rfl⟩

/-! ## The buffer -/

/-- A list that rises from `lo` but not from `lo + 1` starts at `lo`. -/
theorem exists_head_of_not_rise {cs : List Host.Cell} {lo : Nat} (h : cellsRise lo cs = true)
    (h' : ¬ cellsRise (lo + 1) cs = true) : ∃ b ds, cs = (lo, b) :: ds ∧ cellsRise (lo + 1) ds = true := by
  cases cs with
  | nil => exact absurd rfl h'
  | cons c ds =>
    obtain ⟨a, b⟩ := c
    simp only [cellsRise, Bool.and_eq_true, decide_eq_true_eq] at h h'
    obtain ⟨hle, hds⟩ := h
    obtain rfl : a = lo := by
      by_contra hne
      exact h' ⟨by omega, hds⟩
    exact ⟨b, ds, rfl, hds⟩

/-- A canonical list is the list of the bytes it reads as (log 6). -/
theorem eq_cellsOfBytes {cs : List Host.Cell} {lo n : Nat} (hr : cellsRise lo cs = true)
    (hc : ∀ c ∈ cs, c.1 < lo + n ∧ c.2 ≠ Memory.unlisted) :
    cs = cellsOfBytes lo ((List.range' lo n).map (cellAt cs)) := by
  induction n generalizing lo cs with
  | zero =>
    cases cs with
    | nil => rfl
    | cons c cs =>
      simp only [cellsRise, Bool.and_eq_true, decide_eq_true_eq] at hr
      have hhi := (hc c List.mem_cons_self).1
      omega
  | succ n ih =>
    rw [← Nat.succ_add_eq_add_succ] at hc
    rw [List.range'_succ, List.map_cons, cellsOfBytes]
    by_cases hlo : cellsRise (lo + 1) cs = true
    · rw [if_pos (cellAt_of_lt hlo (Nat.lt_succ_self lo))]
      exact ih hlo hc
    · obtain ⟨b, ds, rfl, hds⟩ := exists_head_of_not_rise hr hlo
      have hhead : cellAt ((lo, b) :: ds) lo = b := if_pos rfl
      have htail : ∀ i ∈ List.range' (lo + 1) n, cellAt ((lo, b) :: ds) i = cellAt ds i := fun i hi =>
        if_neg (by have := (List.mem_range'_1.1 hi).1; omega)
      rw [hhead, if_neg (hc (lo, b) List.mem_cons_self).2, List.map_congr_left htail,
        ← ih hds fun c h => hc c (List.mem_cons_of_mem _ h)]

/-- The cells of a canonical buffer. -/
theorem Memory.cells_of_wf {m : Memory} (h : m.wf = true) :
    cellsRise 0 m.cells = true ∧ ∀ c ∈ m.cells, c.1 < m.len ∧ c.2 ≠ Memory.unlisted := by
  simp only [Memory.wf, Bool.and_eq_true, List.all_eq_true, decide_eq_true_eq] at h
  exact ⟨h.1.2, h.2⟩

/-- A canonical buffer is the buffer of the bytes it reads as (log 6). -/
theorem Memory.eq_ofBytes_of_wf {m : Memory} (h : m.wf = true) :
    m = Memory.ofBytes ((List.range' 0 m.len).map m.byteAt) := by
  obtain ⟨hr, hc⟩ := Memory.cells_of_wf h
  have hcells := eq_cellsOfBytes (n := m.len) hr (by rwa [Nat.zero_add])
  rw [Memory.ofBytes, List.length_map, List.length_range']
  exact congrArg (Memory.mk · m.len) hcells

/-- Settles O55: the first half says what `ofBytes` lays out; two buffers that read alike are `ofBytes` of the same
bytes (`eq_ofBytes_of_wf`). -/
theorem bufferFormIsCanonical : Obligations.BufferFormIsCanonical := by
  refine ⟨fun bs h => ⟨Memory.ofBytes_wf bs h, rfl, Memory.byteAt_ofBytes bs⟩, fun m m' hm hm' hlen h => ?_⟩
  have hbytes : (List.range' 0 m.len).map m.byteAt = (List.range' 0 m.len).map m'.byteAt :=
    List.map_congr_left fun i hi => h i (by have := (List.mem_range'_1.1 hi).2; omega)
  rw [Memory.eq_ofBytes_of_wf hm, Memory.eq_ofBytes_of_wf hm', ← hlen, hbytes]

/-! ## The reload -/

/-- Two words side by side, by number. -/
theorem toNat_append_eq {v w : Nat} (x : BitVec v) (y : BitVec w) :
    (x ++ y).toNat = x.toNat * 2 ^ w + y.toNat := by
  rw [BitVec.toNat_append, ← Nat.shiftLeft_add_eq_or_of_lt y.isLt, Nat.shiftLeft_eq]

/-- The 4-byte read by number, most significant byte first (20_memory.md R42). -/
theorem Memory.read4_toNat (m : Memory) (ds : List Byte) (d i : Nat) :
    (m.read4 ds d i).toNat = (m.read ds (4 * d) i).toNat * 2 ^ 24 + (m.read ds (4 * d + 1) (i + 1)).toNat * 2 ^ 16 +
      (m.read ds (4 * d + 2) (i + 2)).toNat * 2 ^ 8 + (m.read ds (4 * d + 3) (i + 3)).toNat := by
  simp only [Memory.read4, toNat_append_eq]
  omega

/-- Settles O56: the four bytes by number (`read4_toNat`), then the shift modulo `2^32`. -/
theorem reloadIsBigEndianAndShifted : Obligations.ReloadIsBigEndianAndShifted := by
  intro m ds d q
  refine ⟨?_, fun j i => ⟨fun h => if_pos h, fun h => if_neg (by omega)⟩⟩
  rw [Memory.reload, BitVec.toNat_shiftLeft, Nat.shiftLeft_eq, Memory.read4_toNat]

end Sys2Proof.Machine

/-! SUPPORT. The decoder's converse, the legal command words and the rows they select, and the statements on the encoding,
the assembler and the runs that follow (30_encoding.md). -/

namespace Sys2Proof

/-! ## The decoder by the fields of the command -/

/-- An unsigned operand comes back from a word it fits (30_encoding.md R62). -/
theorem toNat_ofNat_of_fits {v : Nat} (h : fitsUnsigned32 v = true) : (BitVec.ofNat 32 v).toNat = v := by
  rw [BitVec.toNat_ofNat, Nat.mod_eq_of_lt (of_decide_eq_true h)]

/-- A width comes back from the field `N` it fits (30_encoding.md R61). -/
theorem toNat_ofNat_of_fitsWidth {n : Nat} (h : fitsWidthField n = true) : (BitVec.ofNat 8 n).toNat = n := by
  rw [BitVec.toNat_ofNat, Nat.mod_eq_of_lt (of_decide_eq_true h)]

/-- A row without a width operand answers its instruction where `N = 0` (30_encoding.md R61). -/
theorem plainRow_of_n_eq_zero {c : Command} (h : c.n = 0) (i : Instr) : plainRow c i = .ok i := if_pos h

/-- The converse of `decode_ok`: an instruction that fits is read back from its own opcode and width field and from the
operand words it uses. -/
theorem decode_of_fields {c : Command} {i : Instr} (hr : c.rsv = 0) (hop : c.op = i.opcode) (hn : c.n = i.widthField)
    (hw : i.wellFormed = true) (h0 : i.usesArg0 = true → i.arg0 = c.arg0) (h1 : i.usesArg1 = true → i.arg1 = c.arg1) :
    decode c = .ok i := by
  rw [decode, if_neg (not_not_intro hr), hop]
  cases i with
  | init v | seek v =>
    have hv : c.arg0.toInt = v := by rw [← h0 rfl]; exact toInt_ofInt_of_fits hw
    rw [hv]
    exact plainRow_of_n_eq_zero hn _
  | rdb w | rdbs w | rdb64 w | rdb64s w =>
    have hv : c.n.toNat = w := by rw [hn]; exact toNat_ofNat_of_fitsWidth hw
    rw [hv]
    rfl
  | crc8 off cnt | crc16 off cnt =>
    obtain ⟨hoff, hcnt⟩ := Bool.and_eq_true_iff.1 hw
    have hv0 : c.arg0.toNat = off := by rw [← h0 rfl]; exact toNat_ofNat_of_fits hoff
    have hv1 : c.arg1.toNat = cnt := by rw [← h1 rfl]; exact toNat_ofNat_of_fits hcnt
    rw [hv0, hv1]
    exact plainRow_of_n_eq_zero hn _
  | flush | rdbit | rdun | rduns | rdu8 | rdu8s | rdu8l | rdu8ls | getpos | getla => exact plainRow_of_n_eq_zero hn _

/-- Settles O4: the encoder's word has the instruction's fields, so `decode_of_fields` reads the instruction back. -/
theorem decodeOfEncodeIsTheInstruction : Obligations.DecodeOfEncodeIsTheInstruction :=
  fun i hw => decode_of_fields (commandWord_rsv i.opcode i.widthField _ _) (commandWord_op _ _ _ _)
    (commandWord_n _ _ _ _) hw (fun _ => rfl) (fun _ => rfl)

/-- The command word is the encoding of what the decoder reads. -/
theorem encode_cw_of_decode_ok {c : Command} {i : Instr} (h : decode c = .ok i) : (encode i).cw = c.cw := by
  obtain ⟨hr, hop, hn, -⟩ := decode_ok h
  rw [c.cw_eq hr, hop, hn, encode]

/-- Settles O5: `decode_ok` and the word put together from its fields. -/
theorem encodeOfDecodeIsTheCommand : Obligations.EncodeOfDecodeIsTheCommand := by
  intro c i h
  obtain ⟨-, -, -, hw, h0, h1⟩ := decode_ok h
  exact ⟨hw, encode_cw_of_decode_ok h, h0, h1⟩

/-- Settles O6: the fields that `decode_ok` finds in the one command stand in the other, which `decode_of_fields` reads. -/
theorem unusedOperandWordsAreIgnored : Obligations.UnusedOperandWordsAreIgnored := by
  rintro ⟨cw, a, b⟩ ⟨cw', a', b'⟩ i h (rfl : cw' = cw) h0' h1'
  obtain ⟨hr, hop, hn, hw, h0, h1⟩ := decode_ok h
  exact decode_of_fields hr hop hn hw (fun hu => (h0 hu).trans (h0' hu).symm) (fun hu => (h1 hu).trans (h1' hu).symm)

/-! ## The legal command words -/

/-- The opcodes of the opcode map (30_encoding.md R64); R65 reserves the others. -/
def inOpcodeMap (op : Byte) : Bool :=
  decide ((0x01 ≤ op.toNat ∧ op.toNat ≤ 0x10) ∨ op.toNat = 0x20 ∨ op.toNat = 0x21)

/-- The opcodes of the four width reads. -/
def isWidthRead (op : Byte) : Bool := decide (0x05 ≤ op.toNat ∧ op.toNat ≤ 0x08)

/-- The words that 30_encoding.md R65 does not call illegal: no reserved bit, an opcode of the map (R64), and `N = 0` unless
the command takes a width. -/
structure Command.Legal (c : Command) : Prop where
  /-- `RSV = 0`. -/
  rsv : c.rsv = 0
  /-- `OP` is in the opcode map. -/
  op : inOpcodeMap c.op = true
  /-- Only the four width reads have an `N`. -/
  n : c.n = 0 ∨ isWidthRead c.op = true

/-- An instruction's opcode is in the opcode map. -/
theorem Instr.inOpcodeMap_opcode (i : Instr) : inOpcodeMap i.opcode = true := by cases i <;> rfl

/-- Only the four width reads have a width field. -/
theorem Instr.widthField_eq_zero_or (i : Instr) : i.widthField = 0 ∨ isWidthRead i.opcode = true := by
  cases i with
  | rdb | rdbs | rdb64 | rdb64s => exact .inr rfl
  | init | seek | flush | rdbit | rdun | rduns | rdu8 | rdu8s | rdu8l | rdu8ls | getpos | getla | crc8 | crc16 =>
    exact .inl rfl

/-- What decodes is legal. -/
theorem legal_of_decode_ok {c : Command} {i : Instr} (h : decode c = .ok i) : c.Legal := by
  obtain ⟨hr, hop, hn, -⟩ := decode_ok h
  exact ⟨hr, hop ▸ i.inOpcodeMap_opcode, hop ▸ hn ▸ i.widthField_eq_zero_or⟩

/-- What is legal decodes: with `N = 0` every row of the map answers, so that only a reserved opcode could be refused, and
with a width the four width reads do. -/
theorem decode_ok_of_legal {c : Command} (h : c.Legal) : ∃ i, decode c = .ok i := by
  cases hd : decode c with
  | ok i => exact ⟨i, rfl⟩
  | error e =>
    exfalso
    have hop := of_decide_eq_true h.op
    rw [decode, if_neg (not_not_intro h.rsv)] at hd
    rcases h.n with hn | hn
    · simp only [plainRow_of_n_eq_zero hn] at hd
      split at hd <;> cases hd
      simp only [imp_false] at *
      omega
    · have hwidth := of_decide_eq_true hn
      obtain h5 | h6 | h7 | h8 : c.op.toNat = 5 ∨ c.op.toNat = 6 ∨ c.op.toNat = 7 ∨ c.op.toNat = 8 := by omega
      · rw [h5] at hd; cases hd
      · rw [h6] at hd; cases hd
      · rw [h7] at hd; cases hd
      · rw [h8] at hd; cases hd

/-- A command that is not legal is refused. -/
theorem decode_error_of_not_legal {c : Command} (h : ¬ c.Legal) : ∃ e, decode c = .error e := by
  cases hd : decode c with
  | ok i => exact absurd (legal_of_decode_ok hd) h
  | error e => exact ⟨e, rfl⟩

/-- Settles O7: the encodings run, and the two illegal words break `Command.Legal` by a reserved bit and by a width. -/
theorem encodingExamples : Obligations.EncodingExamples := by
  refine ⟨rfl, rfl, rfl, rfl, rfl, rfl, rfl, rfl, fun a b => decode_error_of_not_legal fun h => ?_,
    fun a b => decode_error_of_not_legal fun h => ?_⟩
  · simpa [Command.rsv] using h.rsv
  · simpa [Command.n, Command.op, isWidthRead] using h.n

/-! ## The opcode table -/

/-- Every row of the opcode table fixes the reserved bits to 0, the opcode to one of the map, and the width field to 0
unless the row is a width read's (30_encoding.md R64). -/
theorem opcodeTable_fixes : ∀ r ∈ opcodeTable,
    (r.mask.extractLsb' 16 16 = BitVec.allOnes 16 ∧ r.value.extractLsb' 16 16 = 0) ∧
    (r.mask.extractLsb' 0 8 = BitVec.allOnes 8 ∧ inOpcodeMap (r.value.extractLsb' 0 8) = true) ∧
    ((r.mask.extractLsb' 8 8 = BitVec.allOnes 8 ∧ r.value.extractLsb' 8 8 = 0) ∨
      isWidthRead (r.value.extractLsb' 0 8) = true) := by
  decide +kernel

/-- A word that selects a row agrees with it on every field that the row fixes. -/
theorem OpcodeRow.field_of_selects {r : OpcodeRow} {cw : Word} (h : r.selects cw = true) (start len : Nat)
    (hm : r.mask.extractLsb' start len = BitVec.allOnes len) :
    cw.extractLsb' start len = r.value.extractLsb' start len := by
  have h : cw &&& r.mask = r.value := beq_iff_eq.1 h
  rw [← h, BitVec.extractLsb'_and, hm, BitVec.and_allOnes]

/-- A word that selects a row of the opcode table is legal. -/
theorem legal_of_selects {r : OpcodeRow} (hr : r ∈ opcodeTable) {c : Command} (h : r.selects c.cw = true) : c.Legal := by
  obtain ⟨⟨hrm, hrv⟩, ⟨hopm, hop⟩, hn⟩ := opcodeTable_fixes r hr
  have hcop : c.op = r.value.extractLsb' 0 8 := r.field_of_selects h 0 8 hopm
  refine ⟨(r.field_of_selects h 16 16 hrm).trans hrv, hcop ▸ hop, ?_⟩
  rcases hn with ⟨hnm, hnv⟩ | hwidth
  · exact .inl ((r.field_of_selects h 8 8 hnm).trans hnv)
  · exact .inr (hcop ▸ hwidth)

/-- Every instruction's own row is the one row of the opcode table that its encoding selects (30_encoding.md R64). -/
theorem tableRow_statement (i : Instr) : Laws.TableRow.Statement i := by
  cases i with
  | init v => exact Laws.TableRow.init v
  | seek v => exact Laws.TableRow.seek v
  | flush => exact Laws.TableRow.flush
  | rdbit => exact Laws.TableRow.rdbit
  | rdb n => exact Laws.TableRow.rdb n
  | rdbs n => exact Laws.TableRow.rdbs n
  | rdb64 n => exact Laws.TableRow.rdb64 n
  | rdb64s n => exact Laws.TableRow.rdb64s n
  | rdun => exact Laws.TableRow.rdun
  | rduns => exact Laws.TableRow.rduns
  | rdu8 => exact Laws.TableRow.rdu8
  | rdu8s => exact Laws.TableRow.rdu8s
  | rdu8l => exact Laws.TableRow.rdu8l
  | rdu8ls => exact Laws.TableRow.rdu8ls
  | getpos => exact Laws.TableRow.getpos
  | getla => exact Laws.TableRow.getla
  | crc8 off cnt => exact Laws.TableRow.crc8 off cnt
  | crc16 off cnt => exact Laws.TableRow.crc16 off cnt

/-- A decoded word selects the rows of its instruction's mnemonic and no other. -/
theorem selects_iff_of_decode_ok {c : Command} {i : Instr} (h : decode c = .ok i) {r : OpcodeRow}
    (hr : r ∈ opcodeTable) : r.selects c.cw = true ↔ r.mnemonic = i.mnemonic := by
  obtain ⟨-, -, -, hw, -⟩ := decode_ok h
  obtain ⟨-, hsel⟩ := tableRow_statement i
  rw [← encode_cw_of_decode_ok h]
  exact hsel hw r hr

/-- Settles O3: the row of the decoded instruction's mnemonic is in the table and is the one its word selects; and a word
that selects a row is legal, so it decodes. -/
theorem wordDecodesExactlyByItsTableRow : Obligations.WordDecodesExactlyByItsTableRow := by
  refine fun c => ⟨fun i hd => ?_, fun r hr hsel => ?_⟩
  · obtain ⟨⟨r, hr, hm⟩, -⟩ := tableRow_statement i
    exact ⟨r, hr, (selects_iff_of_decode_ok hd hr).2 hm, hm⟩
  · obtain ⟨i, hd⟩ := decode_ok_of_legal (legal_of_selects hr hsel)
    exact ⟨i, hd, ((selects_iff_of_decode_ok hd hr).1 hsel).symm⟩

/-! ## The assembler -/

/-- Settles O8: each mnemonic selects its own row (`assemble_mnemonic`), which lays out operands that fit. -/
theorem assemblerAgreesWithTheEncoder : Obligations.AssemblerAgreesWithTheEncoder := by
  intro i hw
  rw [assemble_mnemonic]
  cases i with
  | init v | seek v => exact asmSigned_of_fits _ hw
  | rdb n | rdbs n | rdb64 n | rdb64s n => exact asmWidth_of_fits _ hw
  | crc8 off cnt | crc16 off cnt =>
    obtain ⟨hoff, hcnt⟩ := Bool.and_eq_true_iff.1 hw
    rw [asmRow]
    exact asmRange_of_fits _ hoff hcnt
  | flush | rdbit | rdun | rduns | rdu8 | rdu8s | rdu8l | rdu8ls | getpos | getla => rfl

/-- A width above 255 is refused. -/
theorem asmWidth_eq_none (op : Byte) {v : Int} (h : 255 < v) : asmWidth op [v] = none := by
  rw [asmWidth, widthOperand, if_neg (by omega)]
  rfl

/-- A signed operand outside the range of log 17 is refused. -/
theorem asmSigned_eq_none (op : Byte) {v : Int} (h : v < -0x80000000 ∨ 0x100000000 ≤ v) : asmSigned op [v] = none := by
  rw [asmSigned, signedOperand, if_neg (by omega)]
  rfl

/-- An offset or a count that does not fit 32 bits is refused. -/
theorem asmRange_eq_none (op : Byte) {off cnt : Int} (h : 0x100000000 ≤ off ∨ 0x100000000 ≤ cnt) :
    asmRange op [off, cnt] = none := by
  rcases h with h | h
  · rw [asmRange, unsignedOperand, if_neg (by omega)]
  · have hcnt : unsignedOperand cnt = none := if_neg (by omega)
    rw [asmRange, hcnt]
    cases unsignedOperand off <;> rfl

/-- Settles O9: each mnemonic's row refuses the operand (`assemble_mnemonic`). -/
theorem assemblerRefusesWhatDoesNotFit : Obligations.AssemblerRefusesWhatDoesNotFit := by
  refine ⟨fun n hn m hm => ?_, fun v hv => ⟨?_, ?_⟩, fun off cnt h => ⟨?_, ?_⟩⟩
  · simp only [List.mem_cons, List.not_mem_nil, or_false] at hm
    obtain rfl | rfl | rfl | rfl := hm
    · exact (assemble_mnemonic (.rdb 0) [n]).trans (asmWidth_eq_none _ hn)
    · exact (assemble_mnemonic (.rdbs 0) [n]).trans (asmWidth_eq_none _ hn)
    · exact (assemble_mnemonic (.rdb64 0) [n]).trans (asmWidth_eq_none _ hn)
    · exact (assemble_mnemonic (.rdb64s 0) [n]).trans (asmWidth_eq_none _ hn)
  · exact (assemble_mnemonic (.init 0) [v]).trans (asmSigned_eq_none _ hv)
  · exact (assemble_mnemonic (.seek 0) [v]).trans (asmSigned_eq_none _ hv)
  · exact (assemble_mnemonic (.crc8 0 0) [off, cnt]).trans (asmRange_eq_none _ h)
  · exact (assemble_mnemonic (.crc16 0 0) [off, cnt]).trans (asmRange_eq_none _ h)

end Sys2Proof

namespace Sys2Proof.Machine

/-! ## Illegal words, commands and runs -/

/-- A command that is not legal raises IllegalCommand (30_encoding.md R65). -/
theorem step_of_not_legal {s : State} {c : Command} (hf : s.program[s.k]? = some c) (h : ¬ c.Legal) :
    step s = .next (s.erred 5) := by
  obtain ⟨e, hd⟩ := decode_error_of_not_legal h
  exact step_of_decode_error hf hd

/-- Settles O2: each of the three conditions denies a part of `Command.Legal`. -/
theorem illegalWordRaisesIllegalCommand : Obligations.IllegalWordRaisesIllegalCommand := by
  refine fun s c hf hbad => step_of_not_legal hf fun ⟨hr, hop, hn⟩ => ?_
  simp only [← c.op_toNat, ← c.n_toNat, ← c.rsv_toNat] at hbad
  rcases hbad with h | h | ⟨h, hwidth⟩
  · have := of_decide_eq_true hop
    omega
  · exact h (by rw [hr]; rfl)
  · rcases hn with hn | hn
    · exact h (by rw [hn]; rfl)
    · simp only [List.mem_cons, List.not_mem_nil, or_false] at hwidth
      have := of_decide_eq_true hn
      omega

/-- Settles O21: every command ends (`exec_ends`), and an ending keeps all of this. -/
theorem everyCommandAnswersOnceAndWritesNoMemory : Obligations.EveryCommandAnswersOnceAndWritesNoMemory := by
  intro i s
  obtain ⟨u, r, hnext, hkeeps, hlegal, -⟩ := exec_ends i s
  have hbuf : (u.answer r).buf = s.buf := hkeeps.buf
  exact ⟨u.answer r, r, hnext, by rw [State.answer_responses, hkeeps.responses], hlegal,
    by rw [State.answer_k, hkeeps.k], fun _ => by rw [hbuf], by rw [hbuf], hkeeps.t8, hkeeps.t16, hkeeps.lz8,
    hkeeps.program, hkeeps.draws⟩

/-- A run whose first step answers goes on from there. -/
theorem run_succ_of_step {s t : State} (h : step s = .next t) (n : Nat) :
    Host.Core.run core (n + 1) s = Host.Core.run core n t := by
  have hstep : Host.Core.step core s = .next t := h
  simp only [Host.Core.run, hstep]

/-- A run of as many steps as the list still has commands answers, with one response and one command more for each. -/
theorem run_of_le_length (n : Nat) {s : State} (h : s.k + n ≤ s.program.length) :
    ∃ t : State, Host.Core.run core n s = .next t ∧ t.responses.length = s.responses.length + n ∧ t.k = s.k + n ∧
      t.program = s.program := by
  induction n generalizing s with
  | zero => exact ⟨s, rfl, rfl, rfl, rfl⟩
  | succ n ih =>
    rcases step_ends s with ⟨hle, -⟩ | ⟨-, u, r, he⟩
    · omega
    · have hk : (u.answer r).k = s.k + 1 := by rw [State.answer_k, he.keeps.k]
      have hprogram : (u.answer r).program = s.program := he.keeps.program
      have hresponses : (u.answer r).responses.length = s.responses.length + 1 := by
        rw [State.answer_responses, he.keeps.responses, List.length_append, List.length_singleton]
      obtain ⟨t, hrun, hlen, htk, htp⟩ := ih (s := u.answer r) (by rw [hk, hprogram]; omega)
      exact ⟨t, (run_succ_of_step he.next n).trans hrun, by omega, by omega, htp.trans hprogram⟩

/-- Settles O17: `run_of_le_length` from the launch, where the index and the responses are at 0. -/
theorem everyRunEndsWithOneResponsePerCommand : Obligations.EveryRunEndsWithOneResponsePerCommand := by
  intro m c ds
  obtain ⟨t, hrun, hlen, hk, hprogram⟩ := run_of_le_length c.length (s := State.launch m c ds) (Nat.zero_add _).le
  rw [State.launch_eq] at hlen hk hprogram
  simp only [State.afterReset_responses, State.afterReset_k, State.afterReset_program, List.length_nil,
    Nat.zero_add] at hlen hk hprogram
  exact ⟨t, hrun, hlen, hk, (onlyAnEndedRunStops t).1.2 (by rw [hprogram, hk])⟩

end Sys2Proof.Machine

/-! SUPPORT. What the positioning commands and the fixed-width reads answer, each said once, and the statements on them
that follow (40_cursor_fixed.md). -/

namespace Sys2Proof

/-! ## The command words -/

/-- A command word from its width and opcode by number (30_encoding.md R61). -/
theorem ofNat_eq_commandWord {n : Nat} (hn : n ≤ 255) (op : Byte) :
    BitVec.ofNat 32 (n * 2 ^ 8 + op.toNat) = commandWord op (BitVec.ofNat 8 n) := by
  have hop := op.isLt
  refine BitVec.eq_of_toNat_eq ?_
  rw [commandWord_toNat, BitVec.toNat_ofNat, BitVec.toNat_ofNat]
  omega

/-- The command word of an instruction that fits decodes to it, beside the operand words that it uses (30_encoding.md
R62, R64). -/
theorem decode_word {i : Instr} {cw a b : Word} (hcw : cw = commandWord i.opcode i.widthField)
    (hw : i.wellFormed = true) (h0 : i.usesArg0 = true → i.arg0 = a) (h1 : i.usesArg1 = true → i.arg1 = b) :
    decode ⟨cw, a, b⟩ = .ok i := by
  subst hcw
  exact decode_of_fields (commandWord_rsv _ _ a b) (commandWord_op _ _ a b) (commandWord_n _ _ a b) hw h0 h1

/-- A width up to 255 fits the field `N` (30_encoding.md R61). -/
theorem fitsWidthField_of_le {n : Nat} (hn : n ≤ 255) : fitsWidthField n = true := decide_eq_true (by omega)

/-- `CW = 0x00000001` is INIT with `ARG0` signed (30_encoding.md R62, R64). -/
theorem decode_init (a b : Word) : decode ⟨0x00000001, a, b⟩ = .ok (.init a.toInt) :=
  decode_word (show (0x00000001 : Word) = commandWord 0x01 0 from rfl) (fits_toInt a)
    (fun _ => BitVec.ofInt_toInt) nofun

/-- `CW = 0x00000002` is SEEK with `ARG0` signed (30_encoding.md R62, R64). -/
theorem decode_seek (a b : Word) : decode ⟨0x00000002, a, b⟩ = .ok (.seek a.toInt) :=
  decode_word (show (0x00000002 : Word) = commandWord 0x02 0 from rfl) (fits_toInt a)
    (fun _ => BitVec.ofInt_toInt) nofun

end Sys2Proof

namespace Sys2Proof.Machine

/-! ## Creation, positioning and status -/

section Returned
variable (s : State) (data : Long)
@[simp] theorem State.returned_pos : (s.returned data).pos = s.pos := rfl
@[simp] theorem State.returned_buf : (s.returned data).buf = s.buf := rfl
@[simp] theorem State.returned_responses : (s.returned data).responses = s.responses ++ [⟨0, true, data⟩] := rfl
end Returned

/-- A command that answers after a move within the buffer leaves the cursor at the new position. -/
theorem State.Loaded.pos_returned {s : State} (h : s.Loaded) {q : Nat} (hq : q ≤ 8 * s.buf.len) (r : Nat)
    (data : Long) : ((s.movedTo q r).returned data).pos.toNat = q := h.pos_movedTo hq r

/-- A cursor created within a canonical buffer is one moved there by one reload (40_cursor_fixed.md R82): creating it is
the internal seek from bit 0. -/
theorem State.created_eq_movedTo {s : State} (hm : s.buf.wf = true) {q : Nat} (hq : q ≤ s.bitLen) :
    s.created q = ({ s with init := true } : State).movedTo q 1 := by
  have hlen := Memory.len_le_of_wf hm
  have hq' : 0 + q < 2 ^ 32 := by rw [State.bitLen] at hq; omega
  have h := ({ s with init := true, pos := 0 } : State).advance_eq_movedTo q hq'
  rw [State.advance, show ({ s with init := true, pos := 0 } : State).pos.toNat = 0 from rfl, Nat.zero_add] at h
  exact h

/-- Settles O31: INIT's checks in their order, and the created cursor as a move (`State.created_eq_movedTo`). -/
theorem initCreatesTheCursor : Obligations.InitCreatesTheCursor := by
  refine fun bo s => ⟨decode_init, fun hbad => ?_, fun hm hlen h0 hle => ?_⟩
  · by_cases h : s.buf.len = 0 ∨ bo < 0
    · exact if_pos h
    · exact (if_neg h).trans (if_pos (by rw [State.bitLen]; omega))
  · have hend : ¬ (s.bitLen : Int) < bo := by rw [State.bitLen]; omega
    refine (if_neg (by omega)).trans ((if_neg hend).trans ?_)
    exact congrArg (respond .done) (State.created_eq_movedTo hm (by omega))

/-- SEEK with a cursor (40_cursor_fixed.md R83). -/
theorem exec_seek_of_init {s : State} (hi : s.init = true) (n : Int) :
    exec (.seek n) s = if n ≤ 0 then raise .outOfRange s
      else if (s.bitLen : Int) < s.pos.toNat + n then raise .endOfStream s
      else respond .done (s.advance n.toNat) :=
  if_neg (by simp [hi])

/-- A seek within the buffer succeeds and moves the cursor by one reload (40_cursor_fixed.md R83). -/
theorem exec_seek_eq {s : State} (hl : s.Loaded) (hi : s.init = true) {n : Int} (hn : 0 < n)
    (hle : s.pos.toNat + n ≤ (8 * s.buf.len : Int)) :
    exec (.seek n) s = .next ((s.movedTo (s.pos.toNat + n.toNat) 1).returned 0) := by
  rw [exec_seek_of_init hi, if_neg (by omega), if_neg (by rw [State.bitLen]; omega),
    hl.advance (by rw [State.bitLen]; omega)]
  rfl

/-- Settles O32: SEEK's checks in their order, and `exec_seek_eq`. -/
theorem seekAdvances : Obligations.SeekAdvances := by
  refine fun n s => ⟨decode_seek, exec_eq_raise_of_init_false rfl rfl, fun hi hn => ?_,
    fun hi hn hend => ?_, fun hs hi => exec_seek_eq (hs.loaded hi) hi⟩
  · exact (exec_seek_of_init hi n).trans (if_pos hn)
  · rw [exec_seek_of_init hi, if_neg (by omega), if_pos (by rw [State.bitLen]; omega)]
    rfl

/-- FLUSH with a cursor (40_cursor_fixed.md R84). -/
theorem exec_flush_of_init {s : State} (hi : s.init = true) :
    exec .flush s = if s.pos.toNat % 8 = 0 then respond .done s
      else respond .done (s.advance (8 - s.pos.toNat % 8)) :=
  if_neg (by simp [hi])

/-- Settles O33: the next multiple of 8 lies within the buffer, as a sound cursor does, so the seek to it is a move. -/
theorem flushReachesTheByteBoundary : Obligations.FlushReachesTheByteBoundary := by
  refine fun s => ⟨fun _ _ => decode_word rfl rfl nofun nofun, exec_eq_raise_of_init_false rfl rfl,
    fun hi hal => (exec_flush_of_init hi).trans (if_pos hal), fun hs hi hal => ?_⟩
  have hpos : s.pos.toNat ≤ 8 * s.buf.len := hs.posLe hi
  have hq : s.pos.toNat + (8 - s.pos.toNat % 8) = 8 * (s.pos.toNat / 8 + 1) := by omega
  have hle : 8 * (s.pos.toNat / 8 + 1) ≤ 8 * s.buf.len := by omega
  refine ⟨hle, ?_⟩
  rw [exec_flush_of_init hi, if_neg hal, (hs.loaded hi).advance (hq ▸ hle), hq]
  rfl

/-- Two reloads at one position agree at every bit in the buffer and at the low zero bits (10_state.md R23). -/
theorem Memory.reload_agree (m : Memory) (ds : List Byte) (d d' q : Nat) :
    (∀ j, j ≤ 31 → q + j < 8 * m.len →
      (m.reload ds d q).getLsbD (31 - j) = (m.reload ds d' q).getLsbD (31 - j)) ∧
    (∀ j, j < q % 8 → (m.reload ds d q).getLsbD j = (m.reload ds d' q).getLsbD j) := by
  have hlow : ∀ j, j < q % 8 → (m.reload ds d q).getLsbD j = (m.reload ds d' q).getLsbD j := fun j hj => by
    rw [Memory.reload_bit_low _ _ _ _ _ hj, Memory.reload_bit_low _ _ _ _ _ hj]
  refine ⟨fun j hj hin => ?_, hlow⟩
  by_cases hres : q % 8 + j < 32
  · rw [Memory.reload_bit_inside _ _ _ _ _ hres hin, Memory.reload_bit_inside _ _ _ _ _ hres hin]
  · exact hlow (31 - j) (by omega)

/-- A list of commands whose first one answers goes on from there (20_memory.md R53). -/
theorem execAll_cons {i : Instr} {s t : State} (h : exec i s = .next t) (is : List Instr) :
    execAll (i :: is) s = execAll is t := by
  simp only [execAll, h]

/-- Settles O34: each seek is a move (`exec_seek_eq`), the two of the one sequence add up, and the last reload of either
sequence is at the one position they end at (`Memory.reload_agree`). -/
theorem seeksAdd : Obligations.SeeksAdd := by
  intro a b s hs hi ha hb hle
  have hl := hs.loaded hi
  have hsum : s.pos.toNat + a.toNat + b.toNat = s.pos.toNat + (a + b).toNat := by omega
  have hfirst := exec_seek_eq hl hi ha (by omega)
  have hp := hl.pos_returned (q := s.pos.toNat + a.toNat) (by omega) 1 0
  have hsecond := exec_seek_eq ((exec_sound hs hfirst).loaded hi) hi hb
    (by rw [hp, State.returned_buf, State.movedTo_buf]; omega)
  rw [hp, hsum] at hsecond
  have honce := exec_seek_eq hl hi (Int.add_pos ha hb) (by omega)
  have hend := hl.pos_returned (q := s.pos.toNat + (a + b).toNat) (by omega) 1 0
  refine ⟨_, _, execAll_pair hfirst hsecond, execAll_cons honce [], List.append_assoc _ _ _, rfl, ?_, rfl, hi, rfl,
    ?_⟩
  · rw [State.returned_pos, State.movedTo_pos] at hend ⊢
    rw [hend]
    omega
  · rw [hend]
    exact Memory.reload_agree s.buf s.draws _ _ _

/-- Settles O35: GETPOS answers at its own state, where a sound cursor lies in the buffer. -/
theorem getposReturnsThePosition : Obligations.GetposReturnsThePosition := by
  refine fun s => ⟨fun _ _ => decode_word rfl rfl nofun nofun, exec_eq_raise_of_init_false rfl rfl,
    fun hi => ?_, fun hs => hs.posLe⟩
  rw [BitVec.ofNat_toNat]
  exact if_neg (by simp [hi])

/-- Settles O36: GETLA answers at its own state, where a sound lookahead is a reload, whose low bits are zero. -/
theorem getlaReturnsTheLookahead : Obligations.GetlaReturnsTheLookahead := by
  refine fun s => ⟨fun _ _ => decode_word rfl rfl nofun nofun, exec_eq_raise_of_init_false rfl rfl,
    fun hi => ?_, fun hs hi => ?_⟩
  · rw [BitVec.ofNat_toNat]
    exact if_neg (by simp [hi])
  · obtain ⟨d, hd, hla⟩ := hs.lookahead hi
    exact ⟨⟨d, hd, hla⟩, fun j hj => hla ▸ Memory.reload_bit_low _ _ _ _ _ hj⟩

/-! ## The bit read -/

/-- RDBIT with a cursor (40_cursor_fixed.md R85). -/
theorem exec_rdbit_of_init {s : State} (hi : s.init = true) :
    exec .rdbit s = if s.bitLen < s.pos.toNat + 1 then raise .endOfStream s
      else respond (.value (s.la.extractLsb' 31 1)) (s.advance 1) :=
  if_neg (by simp [hi])

/-- The response with one bit as its result (30_encoding.md R66). -/
theorem Response.value_ofBool (b : Bool) : Response.value (BitVec.ofBool b) = ⟨0, true, if b then 1 else 0⟩ := by
  cases b <;> rfl

/-- Settles O37: the top bit of the lookahead is the next stream bit (`State.Loaded.topBit`). -/
theorem rdbitReadsTheNextBit : Obligations.RdbitReadsTheNextBit := by
  refine fun s => ⟨fun _ _ => decode_word rfl rfl nofun nofun, exec_eq_raise_of_init_false rfl rfl,
    fun hi hend => (exec_rdbit_of_init hi).trans (if_pos hend), fun hs hi hle => ?_⟩
  have hl := hs.loaded hi
  have hle : s.pos.toNat + 1 ≤ s.bitLen := hle
  rw [exec_rdbit_of_init hi, if_neg (by omega), hl.topBit hle, Response.value_ofBool, hl.advance hle]
  rfl

/-! ## The width reads -/

/-- The shape of the four width reads (40_cursor_fixed.md R81, R86 to R90): the common checks for a width of at most
`max`, then the read, whose value is answered after a cast. -/
def widthRead {w : Nat} (max n : Nat) (read : State → BitVec w × State) (cast : BitVec w → BitVec w) :
    State → Result :=
  checkedRead (fieldError max n) fun s => respond (.value (cast (read s).1)) (read s).2

theorem exec_rdb (n : Nat) : exec (.rdb n) = widthRead 32 n (readCore n) id := rfl

theorem exec_rdbs (n : Nat) : exec (.rdbs n) = widthRead 32 n (readCore n) fun u => signExtend32 u n := rfl

theorem exec_rdb64 (n : Nat) : exec (.rdb64 n) = widthRead 64 n (readCore64 n) id := rfl

theorem exec_rdb64s (n : Nat) : exec (.rdb64s n) = widthRead 64 n (readCore64 n) fun x => signExtend64 x n := rfl

section
variable {w max n : Nat} {i : Instr} {read : State → BitVec w × State} {cast : BitVec w → BitVec w} {s : State}
  (hexec : exec i = widthRead max n read cast)
include hexec

/-- A width outside the read's range raises OutOfRange (40_cursor_fixed.md R81). -/
theorem exec_outOfRange_of_widthRead (hi : s.init = true) (hn : n < 1 ∨ max < n) : exec i s = .next (s.erred 2) := by
  have he : fieldError max n s = some .outOfRange := by
    rw [fieldError, if_neg (by simp [hi]), if_pos hn]
  rw [hexec]
  exact checkedRead_of_some he _

/-- A field past the buffer's end raises EndOfStream (40_cursor_fixed.md R81). -/
theorem exec_endOfStream_of_widthRead (hi : s.init = true) (h1 : 1 ≤ n) (hmax : n ≤ max)
    (hend : 8 * s.buf.len < s.pos.toNat + n) : exec i s = .next (s.erred 3) := by
  have he : fieldError max n s = some .endOfStream := by
    rw [fieldError, if_neg (by simp [hi]), if_neg (by omega)]
    exact if_pos hend
  rw [hexec]
  exact checkedRead_of_some he _

/-- A field within the buffer is read, and its value is answered (40_cursor_fixed.md R81). -/
theorem exec_eq_of_widthRead (hi : s.init = true) (h1 : 1 ≤ n) (hmax : n ≤ max) (hk : s.pos.toNat + n ≤ 8 * s.buf.len)
    {v : BitVec w} {t : State} (hread : read s = (v, t)) :
    exec i s = .next (t.returned ((cast v).setWidth 64)) := by
  rw [hexec, widthRead, checkedRead_of_none (fieldError_eq_none.2 ⟨hi, ⟨h1, hmax⟩, hk⟩), hread]
  rfl

end

/-- RDB within the buffer returns the field (40_cursor_fixed.md R86). -/
theorem exec_rdb_eq {n : Nat} {s : State} (hs : s.Sound) (hi : s.init = true) (h1 : 1 ≤ n) (h32 : n ≤ 32)
    (hk : s.pos.toNat + n ≤ 8 * s.buf.len) :
    exec (.rdb n) s = .next ((s.movedTo (s.pos.toNat + n) (if n ≤ 24 then 1 else 2)).returned
      (BitVec.ofNat 64 (s.buf.field s.pos.toNat n))) := by
  have hlt : s.buf.field s.pos.toNat n < 2 ^ 32 :=
    (s.buf.field_lt s.pos.toNat n).trans_le (Nat.pow_le_pow_right (by omega) h32)
  rw [exec_eq_of_widthRead (exec_rdb n) hi h1 h32 hk (readCore_eq (hs.loaded hi) h32 hk), id,
    BitVec.setWidth_ofNat_of_le_of_lt (by omega) hlt]

/-- RDB64 within the buffer returns the field (40_cursor_fixed.md R89). -/
theorem exec_rdb64_eq {n : Nat} {s : State} (hs : s.Sound) (hi : s.init = true) (h1 : 1 ≤ n) (h64 : n ≤ 64)
    (hk : s.pos.toNat + n ≤ 8 * s.buf.len) :
    exec (.rdb64 n) s = .next ((s.movedTo (s.pos.toNat + n) ((n + 23) / 24)).returned
      (BitVec.ofNat 64 (s.buf.field s.pos.toNat n))) := by
  rw [exec_eq_of_widthRead (exec_rdb64 n) hi h1 h64 hk (readCore64_eq (hs.loaded hi) h1 h64 hk), id,
    BitVec.setWidth_eq]

/-- Settles O38: the common checks of the width reads, and `exec_rdb_eq`. -/
theorem rdbReadsTheField : Obligations.RdbReadsTheField :=
  fun n _ => ⟨fun hn _ _ => decode_word (ofNat_eq_commandWord hn 0x05) (fitsWidthField_of_le hn) nofun nofun,
    exec_eq_raise_of_init_false rfl rfl, exec_outOfRange_of_widthRead (exec_rdb n),
    exec_endOfStream_of_widthRead (exec_rdb n), exec_rdb_eq⟩

/-- Settles O40: the common checks of the width reads, and `exec_rdb64_eq`. -/
theorem rdb64ReadsTheField : Obligations.Rdb64ReadsTheField :=
  fun n _ => ⟨fun hn _ _ => decode_word (ofNat_eq_commandWord hn 0x07) (fitsWidthField_of_le hn) nofun nofun,
    exec_eq_raise_of_init_false rfl rfl, exec_outOfRange_of_widthRead (exec_rdb64 n),
    exec_endOfStream_of_widthRead (exec_rdb64 n), exec_rdb64_eq⟩

/-! ## The signed reads -/

/-- A field as an `n`-bit word has the field's signed value: its sign is the first stream bit (00_scope.md R7). -/
theorem Memory.toInt_ofNat_field (m : Memory) (q : Nat) {n : Nat} (h1 : 1 ≤ n) :
    (BitVec.ofNat n (m.field q n)).toInt = m.signedField q n := by
  have hmsb : (BitVec.ofNat n (m.field q n)).msb = m.streamBit q := by
    rw [BitVec.msb_eq_getLsbD_last, BitVec.getLsbD_ofNat, m.field_msb q n h1]
    simp [show n - 1 < n by omega]
  rw [BitVec.toInt_eq_msb_cond, hmsb, BitVec.toNat_ofNat, Nat.mod_eq_of_lt (m.field_lt q n), Memory.signedField]
  norm_cast

/-- A field cut to its width and sign-extended is the pattern of its signed value. -/
theorem Memory.signExtend_field (m : Memory) (q : Nat) {n w : Nat} (h1 : 1 ≤ n) (hw : n ≤ w) (v : Nat) :
    ((BitVec.ofNat w (m.field q n)).setWidth n).signExtend v = BitVec.ofInt v (m.signedField q n) := by
  rw [BitVec.setWidth_ofNat_of_le hw, BitVec.signExtend, m.toInt_ofNat_field q h1]

/-- The shifts of RDBS extend the sign of the low `n` bits (40_cursor_fixed.md R87). -/
theorem signExtend32_eq (u : Word) {n : Nat} (h1 : 1 ≤ n) (h32 : n ≤ 32) :
    signExtend32 u n = (u.setWidth n).signExtend 32 := by
  have hsign : (u.setWidth n).msb = (u <<< (32 - n)).msb := by
    rw [BitVec.msb_shiftLeft, BitVec.msb_eq_getLsbD_last, BitVec.getLsbD_setWidth, BitVec.getMsbD]
    simp [show n - 1 < n by omega, show 32 - n < 32 by omega, show 31 - (32 - n) = n - 1 by omega]
  refine BitVec.eq_of_getLsbD_eq fun i hi => ?_
  rw [signExtend32, BitVec.getLsbD_sshiftRight, BitVec.getLsbD_signExtend, hsign]
  by_cases h : i < n
  · simp [h, hi, show 32 - n + i < 32 by omega]
  · simp [h, hi, show ¬ 32 - n + i < 32 by omega]

/-- Settles O39: the read of RDB, whose value's sign is extended by the shifts (`signExtend32_eq`). -/
theorem rdbsReadsTheSignedField : Obligations.RdbsReadsTheSignedField := by
  refine fun n s => ⟨fun hn _ _ => decode_word (ofNat_eq_commandWord hn 0x06) (fitsWidthField_of_le hn) nofun nofun,
    exec_eq_raise_of_init_false rfl rfl, exec_outOfRange_of_widthRead (exec_rdbs n),
    exec_endOfStream_of_widthRead (exec_rdbs n), fun hs hi h1 h32 hk => ?_⟩
  rw [exec_eq_of_widthRead (exec_rdbs n) hi h1 h32 hk (readCore_eq (hs.loaded hi) h32 hk), signExtend32_eq _ h1 h32,
    Memory.signExtend_field _ _ h1 h32]

/-- Settles O41: the read of RDB64, whose value's sign is extended over 64 bits. -/
theorem rdb64sReadsTheSignedField : Obligations.Rdb64sReadsTheSignedField := by
  refine fun n s => ⟨fun hn _ _ => decode_word (ofNat_eq_commandWord hn 0x08) (fitsWidthField_of_le hn) nofun nofun,
    exec_eq_raise_of_init_false rfl rfl, exec_outOfRange_of_widthRead (exec_rdb64s n),
    exec_endOfStream_of_widthRead (exec_rdb64s n), fun hs hi h1 h64 hk => ?_⟩
  rw [exec_eq_of_widthRead (exec_rdb64s n) hi h1 h64 hk (readCore64_eq (hs.loaded hi) h1 h64 hk),
    BitVec.setWidth_eq, signExtend64, Memory.signExtend_field _ _ h1 h64]

/-! ## Reads in order -/

/-- The command returns the field of `n` bits from every sound cursor that has them left, and moves on behind it. -/
def ReturnsField (i : Instr) (n : Nat) : Prop :=
  ∀ s : State, s.Sound → s.init = true → s.pos.toNat + n ≤ 8 * s.buf.len →
    ∃ r, exec i s = .next ((s.movedTo (s.pos.toNat + n) r).returned (BitVec.ofNat 64 (s.buf.field s.pos.toNat n)))

theorem rdb_returnsField {n : Nat} (hn : 1 ≤ n ∧ n ≤ 32) : ReturnsField (.rdb n) n :=
  fun _ hs hi hk => ⟨_, exec_rdb_eq hs hi hn.1 hn.2 hk⟩

theorem rdb64_returnsField {n : Nat} (hn : 1 ≤ n ∧ n ≤ 64) : ReturnsField (.rdb64 n) n :=
  fun _ hs hi hk => ⟨_, exec_rdb64_eq hs hi hn.1 hn.2 hk⟩

/-- Reads that return their fields return the consecutive fields when run in order (40_cursor_fixed.md R92). -/
theorem execAll_returnsFields (read : Nat → Instr) {ws : List Nat} (hread : ∀ w ∈ ws, ReturnsField (read w) w)
    {s : State} (hs : s.Sound) (hi : s.init = true) (hle : s.pos.toNat + ws.sum ≤ 8 * s.buf.len) :
    ∃ t, execAll (ws.map read) s = .next t ∧
      t.responses = s.responses ++
        (s.buf.fieldsFrom s.pos.toNat ws).map (fun v => ⟨0, true, BitVec.ofNat 64 v⟩) ∧
      t.pos.toNat = s.pos.toNat + ws.sum := by
  induction ws generalizing s with
  | nil => exact ⟨s, rfl, (List.append_nil _).symm, rfl⟩
  | cons w ws ih =>
    rw [List.sum_cons] at hle ⊢
    obtain ⟨r, hw⟩ := hread w List.mem_cons_self s hs hi (by omega)
    have hp := (hs.loaded hi).pos_returned (q := s.pos.toNat + w) (by omega) r
      (BitVec.ofNat 64 (s.buf.field s.pos.toNat w))
    obtain ⟨t, ht, hresponses, hpos⟩ := ih (fun v hv => hread v (List.mem_cons_of_mem w hv)) (exec_sound hs hw) hi
      (by rw [hp, State.returned_buf, State.movedTo_buf]; omega)
    refine ⟨t, (execAll_cons hw _).trans ht, ?_, by omega⟩
    rw [hresponses, hp, State.returned_responses, List.append_assoc]
    rfl

/-- Settles O42: RDB and RDB64 return their fields, so their lists return the consecutive ones. -/
theorem readsInOrderReturnTheFields : Obligations.ReadsInOrderReturnTheFields :=
  fun _ _ hs hi hle =>
    ⟨fun hws => execAll_returnsFields .rdb (fun w hw => rdb_returnsField (hws w hw)) hs hi hle,
      fun hws => execAll_returnsFields .rdb64 (fun w hw => rdb64_returnsField (hws w hw)) hs hi hle⟩

end Sys2Proof.Machine

/-! SUPPORT. What the unary and the UTF-8-like reads answer, each said once, and the statements on them that follow
(41_cursor_varlen.md). -/

namespace Sys2Proof.Machine

/-! ## The leading-zero table -/

/-- A nonzero byte has as many leading zeros as there are places above its highest set bit. -/
theorem leadingZeros8_of_ne_zero {v : Byte} (h : v ≠ 0) : (leadingZeros8 v.toNat).toNat = 7 - v.toNat.log2 := by
  have hne : v.toNat ≠ 0 := fun h0 => h (BitVec.eq_of_toNat_eq h0)
  have hlt : v.toNat.log2 < 8 := (Nat.log2_lt hne).2 v.isLt
  have habove (i : Fin 8) (hi : i < ⟨7 - v.toNat.log2, by omega⟩) : v.getLsbD (7 - i) = false := by
    have hi' : i.val < 7 - v.toNat.log2 := hi
    exact Nat.testBit_lt_two_pow ((Nat.log2_lt hne).1 (by omega))
  have hset : v.getLsbD (7 - (7 - v.toNat.log2)) = true := by
    rw [show 7 - (7 - v.toNat.log2) = v.toNat.log2 by omega]
    exact Nat.testBit_log2 hne
  rw [leadingZeros8_eq v ⟨7 - v.toNat.log2, by omega⟩ habove hset]
  exact Nat.mod_eq_of_lt (by omega)

/-- Settles O13: an entry of the table counts leading zeros (`leadingZeros8_of_ne_zero`). -/
theorem leadingZeroTableCountsLeadingZeros : Obligations.LeadingZeroTableCountsLeadingZeros := by
  intro v
  rw [show State.reset.lz8 = leadingZeroTable from rfl, tableAt_leadingZeroTable]
  by_cases h : v = 0
  · subst h; rfl
  · rw [if_neg h, leadingZeros8_of_ne_zero h]

/-! ## The zig-zag map -/

theorem zigzag_of_even {v : Word} (h : v.toNat % 2 = 0) : zigzag v = v >>> 1 := by
  have hbit : v &&& 1 = 0 := BitVec.eq_of_toNat_eq (by simp [Nat.and_one_is_mod, h])
  rw [zigzag, hbit, show -(0 : Word) = 0#32 from rfl, BitVec.xor_zero]

theorem zigzag_of_odd {v : Word} (h : v.toNat % 2 = 1) : zigzag v = ~~~(v >>> 1) := by
  have hbit : v &&& 1 = 1 := BitVec.eq_of_toNat_eq (by simp [Nat.and_one_is_mod, h])
  rw [zigzag, hbit, show -(1 : Word) = BitVec.allOnes 32 from rfl, BitVec.xor_allOnes]

/-- The zig-zag law (41_cursor_varlen.md R114). -/
theorem zigzag_toInt (v : Word) : (zigzag v).toInt =
    if v.toNat % 2 = 0 then ((v.toNat / 2 : Nat) : Int) else -(((v.toNat + 1) / 2 : Nat) : Int) := by
  have hhalf : (v >>> 1).toNat = v.toNat / 2 := by rw [BitVec.toNat_ushiftRight, Nat.shiftRight_one]
  have hlt := v.isLt
  split
  · next h =>
    rw [zigzag_of_even h, BitVec.toInt_eq_toNat_of_lt (by omega), hhalf]
  · next h =>
    have hnot : (~~~(v >>> 1)).toNat = 2 ^ 32 - 1 - v.toNat / 2 := by rw [BitVec.toNat_not, hhalf]
    rw [zigzag_of_odd (by omega), BitVec.toInt_eq_toNat_cond, hnot, if_neg (by omega)]
    omega

/-- The law gives even words the values from 0 on and odd words the negative ones, so no two words share one. -/
theorem zigzag_injective : Function.Injective zigzag := by
  intro v v' h
  have hint := congrArg BitVec.toInt h
  rw [zigzag_toInt, zigzag_toInt] at hint
  refine BitVec.eq_of_toNat_eq ?_
  split at hint <;> split at hint <;> omega

/-- Settles O45: the law, and an injection of a finite type into itself. -/
theorem zigzagIsABijection : Obligations.ZigzagIsABijection :=
  ⟨zigzag_toInt, Finite.injective_iff_bijective.1 zigzag_injective⟩

/-! ## The unary reads -/

/-- The shape of the two unary reads (41_cursor_varlen.md R111, R113): the checks, then the read, whose count is
answered after a cast. -/
def unaryRead (cast : Word → Word) : State → Result :=
  checkedRead unaryError fun s => respond (.value (cast (readUnary s).1)) (readUnary s).2

theorem exec_rdun : exec .rdun = unaryRead id := rfl

theorem exec_rduns : exec .rduns = unaryRead zigzag := rfl

section
variable {i : Instr} {cast : Word → Word} {s : State} (hexec : exec i = unaryRead cast)
include hexec

/-- Without a set bit before the buffer's end a unary read raises EndOfStream (41_cursor_varlen.md R111). -/
theorem exec_endOfStream_of_unaryRead (hi : s.init = true)
    (h : ∀ q, s.pos.toNat ≤ q → q < 8 * s.buf.len → s.buf.streamBit q = false) : exec i s = .next (s.erred 3) := by
  have hnone : s.buf.anySet (s.bitLen - s.pos.toNat) s.pos.toNat = false := by
    refine Bool.eq_false_iff.2 fun hany => ?_
    obtain ⟨t, hle, hlt, hset⟩ := (s.buf.anySet_eq_true _ _).1 hany
    rw [State.bitLen] at hlt
    simp [h t hle (by omega)] at hset
  have he : unaryError s = some .endOfStream := by
    rw [unaryError, if_neg (by simp [hi]), if_pos hnone]
  rw [hexec]
  exact checkedRead_of_some he _

/-- A unary read answers the distance to the first set bit, and leaves the cursor behind that bit (41_cursor_varlen.md
R112). -/
theorem exec_eq_of_unaryRead (hs : s.Sound) (hi : s.init = true) {t : Nat} (ht : s.buf.firstSet s.pos.toNat t) :
    exec i s = .next ((s.movedTo (t + 1) ((t - s.pos.toNat) / 8 + 1)).returned
      ((cast (BitVec.ofNat 32 (t - s.pos.toNat))).setWidth 64)) := by
  rw [hexec, unaryRead, checkedRead_of_none ((unaryError_eq_none (hs.posLe hi)).2 ⟨hi, t, ht⟩),
    readUnary_eq (hs.loaded hi) hs.lz8 ht]
  rfl

end

/-- A distance to a set bit fits 32 bits, as every position in a sound state's buffer does. -/
theorem State.Loaded.distance_lt {s : State} (h : s.Loaded) {t : Nat} (ht : s.buf.firstSet s.pos.toNat t) :
    t - s.pos.toNat < 2 ^ 32 := by
  have hsmall := h.small
  have hlt : t < 8 * s.buf.len := ht.2.1
  omega

/-- Settles O43: the checks of the unary reads, and `exec_eq_of_unaryRead`. -/
theorem rdunReturnsTheDistanceToTheFirstSetBit : Obligations.RdunReturnsTheDistanceToTheFirstSetBit := by
  refine fun s => ⟨fun _ _ => decode_word rfl rfl nofun nofun, exec_eq_raise_of_init_false rfl rfl,
    exec_endOfStream_of_unaryRead exec_rdun, fun t hs hi ht => ?_⟩
  rw [exec_eq_of_unaryRead exec_rdun hs hi ht, id,
    BitVec.setWidth_ofNat_of_le_of_lt (by omega) ((hs.loaded hi).distance_lt ht)]

/-- Settles O44: the read of RDUN, whose count is mapped by the zig-zag law (`zigzag_toInt`). -/
theorem rdunsReturnsTheZigzagOfTheUnaryValue : Obligations.RdunsReturnsTheZigzagOfTheUnaryValue := by
  refine fun s => ⟨fun _ _ => decode_word rfl rfl nofun nofun, exec_eq_raise_of_init_false rfl rfl,
    exec_endOfStream_of_unaryRead exec_rduns, fun t hs hi ht => ?_⟩
  have hlaw := zigzag_toInt (BitVec.ofNat 32 (t - s.pos.toNat))
  rw [BitVec.toNat_ofNat, Nat.mod_eq_of_lt ((hs.loaded hi).distance_lt ht)] at hlaw
  rw [exec_eq_of_unaryRead exec_rduns hs hi ht, ← hlaw, BitVec.ofInt_toInt]

/-! ## The bytes of a UTF-8-like integer -/

/-- A leading byte of a valid row carries what it is above the row's lowest (41_cursor_varlen.md R120). -/
theorem leadByte_of_row : ∀ r ∈ utf8Rows, ∀ x : BitVec 8, r.1 ≤ x.toNat → x.toNat ≤ r.2.1 →
    leadByte x = some (r.2.2, BitVec.ofNat 8 (x.toNat - r.1)) := by
  decide +kernel

/-- A byte that is a continuation byte is no leading byte (41_cursor_varlen.md R120). -/
theorem leadByte_of_isContinuation {x : Byte} (h : isContinuation x = true) : leadByte x = none := by
  revert x
  decide +kernel

/-- The continuation bytes are those from `0x80` to `0xBF` (41_cursor_varlen.md R120). -/
theorem isContinuation_eq : ∀ x : BitVec 8, isContinuation x = decide (0x80 ≤ x.toNat ∧ x.toNat ≤ 0xBF) := by
  decide +kernel

theorem Memory.isContinuation_octet (m : Memory) (q : Nat) :
    isContinuation (m.octet q) = true ↔ m.continuesAt q := by
  rw [isContinuation_eq, decide_eq_true_iff, Memory.continuesAt]

/-- Appending a continuation byte is arithmetic in base 64 (41_cursor_varlen.md R121). -/
theorem appendContinuation_ofNat {w : Nat} (v : Nat) (c : Byte) :
    appendContinuation (BitVec.ofNat w v) c = BitVec.ofNat w (v * 64 + c.toNat % 64) := by
  have hlow : (c &&& 0x3F).toNat = c.toNat % 64 := by
    rw [BitVec.toNat_and]
    exact Nat.and_two_pow_sub_one_eq_mod c.toNat 6
  have hor : v * 64 + c.toNat % 64 = v <<< 6 ||| c.toNat % 64 := by
    rw [← Nat.shiftLeft_add_eq_or_of_lt (Nat.mod_lt _ (by omega)), Nat.shiftLeft_eq]
  refine BitVec.eq_of_toNat_eq ?_
  rw [appendContinuation, hor, BitVec.toNat_or, BitVec.toNat_shiftLeft, BitVec.toNat_setWidth, hlow, BitVec.toNat_ofNat,
    BitVec.toNat_ofNat, Nat.or_mod_two_pow, Nat.shiftLeft_eq, Nat.shiftLeft_eq, Nat.mod_mul_mod]

/-- The value of an integer, its first continuation byte taken into the value so far. -/
theorem Memory.utf8Value_succ (m : Memory) (q v k : Nat) :
    m.utf8Value q v (k + 1) = m.utf8Value (q + 8) (v * 64 + (m.octet (q + 8)).toNat % 64) k := by
  have hq (j : Nat) : q + 8 * (j + 1 + 1) = q + 8 + 8 * (j + 1) := by omega
  have hk (j : Nat) : k + 1 - 1 - (j + 1) = k - 1 - j := by omega
  simp only [Memory.utf8Value, List.range_succ_eq_map, List.map_cons, List.map_map, List.sum_cons,
    Function.comp_def, Nat.succ_eq_add_one, hq, hk]
  rw [show k + 1 - 1 - 0 = k from rfl]
  ring

theorem Memory.utf8Value_lt (m : Memory) (q v k : Nat) : m.utf8Value q v k < (v + 1) * 64 ^ k := by
  induction k generalizing q v with
  | zero => simp [Memory.utf8Value]
  | succ k ih =>
    rw [Memory.utf8Value_succ, Nat.pow_succ', ← Nat.mul_assoc]
    refine (ih _ _).trans_le (Nat.mul_le_mul_right _ ?_)
    omega

/-- A value of a read within its cap fits the read's width, which fits `DATA` (41_cursor_varlen.md R126). -/
theorem utf8Forms_fit : ∀ f ∈ utf8Forms, f.2.1 ≤ 64 ∧
    ∀ r ∈ utf8Rows, r.2.2 ≤ f.2.2 → (r.2.1 - r.1 + 1) * 64 ^ r.2.2 ≤ 2 ^ f.2.1 := by
  decide

/-! ## How a decode ends -/

/-- `j` continuation bytes that match are appended to the value, and the decode goes on behind them
(41_cursor_varlen.md R121). -/
theorem Memory.utf8Tail_of_continues (m : Memory) {w r j : Nat} (q v : Nat) (hle : q + 8 * (j + 1) ≤ 8 * m.len)
    (hc : ∀ i, i < j → m.continuesAt (q + 8 * (i + 1))) :
    m.utf8Tail (j + r) (BitVec.ofNat w v) (q + 8) =
      (m.utf8Tail r (BitVec.ofNat w (m.utf8Value q v j)) (q + 8 * (j + 1))).map id (· + j) := by
  induction j generalizing q v with
  | zero => simp [Memory.utf8Value, Prod.map]
  | succ j ih =>
    have hnext : m.continuesAt (q + 8) := hc 0 (by omega)
    have hrest (i : Nat) (hi : i < j) : m.continuesAt (q + 8 + 8 * (i + 1)) := by
      rw [show q + 8 + 8 * (i + 1) = q + 8 * (i + 1 + 1) by omega]
      exact hc (i + 1) (by omega)
    rw [show j + 1 + r = j + r + 1 by omega, Memory.utf8Tail, if_neg (by omega),
      if_pos ((m.isContinuation_octet _).2 hnext), appendContinuation_ofNat, ih _ _ (by omega) hrest,
      ← Memory.utf8Value_succ, show q + 8 + 8 * (j + 1) = q + 8 * (j + 1 + 1) by omega]
    rfl

/-- A decode whose leading byte is of a row within the cap, and whose next `j` bytes continue it, ends as the rest of
its continuation bytes say (41_cursor_varlen.md R120, R121). -/
theorem Memory.utf8Ending_of_continues {m : Memory} {w kMax lo hi j r q : Nat}
    (hrow : (lo, hi, j + r) ∈ utf8Rows) (hk : j + r ≤ kMax) (hle : q + 8 * (j + 1) ≤ 8 * m.len)
    (hlo : lo ≤ (m.octet q).toNat) (hhi : (m.octet q).toNat ≤ hi)
    (hc : ∀ i, i < j → m.continuesAt (q + 8 * (i + 1))) :
    m.utf8Ending w kMax q =
      (m.utf8Tail r (BitVec.ofNat w (m.utf8Value q ((m.octet q).toNat - lo) j)) (q + 8 * (j + 1))).map id
        (· + (j + 1)) := by
  have hlead := leadByte_of_row _ hrow (m.octet q) hlo hhi
  have hv : (BitVec.ofNat 8 ((m.octet q).toNat - lo)).setWidth w = BitVec.ofNat w ((m.octet q).toNat - lo) := by
    refine BitVec.eq_of_toNat_eq ?_
    have := (m.octet q).isLt
    rw [BitVec.toNat_setWidth, BitVec.toNat_ofNat, BitVec.toNat_ofNat, Nat.mod_eq_of_lt (a := _ - _) (by omega)]
  have htail := m.utf8Tail_of_continues (w := w) (r := r) q ((m.octet q).toNat - lo) hle hc
  simp only [Memory.utf8Ending, if_neg (show ¬ 8 * m.len < q + 8 by omega), hlead, if_neg (Nat.not_lt.2 hk), hv, htail]
  rfl

/-! ## The UTF-8-like reads -/

/-- The cast of the signed forms is none at all (41_cursor_varlen.md R123, R125). -/
theorem signedPattern_eq_id (w : Nat) : (signedPattern : BitVec w → BitVec w) = id := funext signedPattern_eq

/-- Each of the four reads is the decode by its width and its cap: the cast of the signed ones keeps the pattern
(41_cursor_varlen.md R122 to R125). -/
theorem exec_utf8 {i : Instr} {w kMax : Nat} (hf : (i, w, kMax) ∈ utf8Forms) : exec i = utf8Respond w kMax id := by
  simp only [utf8Forms, List.mem_cons, Prod.mk.injEq, List.not_mem_nil, or_false] at hf
  obtain ⟨rfl, rfl, rfl⟩ | ⟨rfl, rfl, rfl⟩ | ⟨rfl, rfl, rfl⟩ | ⟨rfl, rfl, rfl⟩ := hf
  · rfl
  · exact congrArg (utf8Respond 32 5) (signedPattern_eq_id 32)
  · rfl
  · exact congrArg (utf8Respond 64 6) (signedPattern_eq_id 64)

/-- Settles O50: the signed forms differ from the unsigned ones in their cast alone. -/
theorem signedUtf8FormsKeepThePattern : Obligations.SignedUtf8FormsKeepThePattern :=
  fun s => ⟨congrArg (utf8Respond 32 5 · s) (signedPattern_eq_id 32),
    congrArg (utf8Respond 64 6 · s) (signedPattern_eq_id 64)⟩

section
variable {i : Instr} {w kMax n : Nat} {s : State} (hf : (i, w, kMax) ∈ utf8Forms) (hs : s.Sound)
  (hi : s.init = true)
include hf hs hi

/-- A decode that ends in a value answers it behind its last byte (41_cursor_varlen.md R121). -/
theorem exec_utf8_of_value {v : BitVec w} (hn : 1 ≤ n)
    (h : s.buf.utf8Ending w kMax s.pos.toNat = (.value v, n)) :
    exec i s = .next ((s.movedTo (s.pos.toNat + 8 * n) n).returned (v.setWidth 64)) := by
  rw [exec_utf8 hf, utf8Respond_eq id (hs.loaded hi) hi, h, s.afterBytes_eq_movedTo hn]
  rfl

/-- A decode that fails answers the sentinel behind the byte that fails (41_cursor_varlen.md R121, 60_exceptions.md
R163). -/
theorem exec_utf8_of_failure (hn : 1 ≤ n) (h : s.buf.utf8Ending w kMax s.pos.toNat = (.failure, n)) :
    exec i s = .next ((s.movedTo (s.pos.toNat + 8 * n) n).mismatched w) := by
  have hsentinel : (BitVec.allOnes w).setWidth 64 = BitVec.ofNat 64 (2 ^ w - 1) := by
    have hw : w ≤ 64 := (utf8Forms_fit _ hf).1
    rw [BitVec.allOnes, BitVec.ofNatLT_eq_ofNat, BitVec.setWidth_ofNat_of_le_of_lt hw (by simp)]
  rw [exec_utf8 hf, utf8Respond_eq id (hs.loaded hi) hi, h, s.afterBytes_eq_movedTo hn, State.mismatched, ← hsentinel]
  rfl

/-- A decode that runs out of buffer raises EndOfStream, the cursor rolled back (41_cursor_varlen.md R121). -/
theorem exec_utf8_of_endOfStream (h : s.buf.utf8Ending w kMax s.pos.toNat = (.endOfStream, n)) :
    exec i s = .next ((s.withReloads n).erred 3) := by
  rw [exec_utf8 hf, utf8Respond_eq id (hs.loaded hi) hi, h]
  exact congrArg (raise .endOfStream) (s.afterBytes_rollBackTo n)

end

/-- Settles O46: all continuation bytes match, so the decode ends in their value, which fits the width of the read. -/
theorem utf8ReadsAValidInteger : Obligations.Utf8ReadsAValidInteger := by
  intro i w kMax lo hi k s hf hrow hs hinit hk hle hlo hhi hc
  obtain ⟨hw, hfit⟩ := utf8Forms_fit _ hf
  have hending := Memory.utf8Ending_of_continues (w := w) (r := 0) hrow hk hle hlo hhi hc
  rw [Memory.utf8Tail, Prod.map_apply, Nat.zero_add] at hending
  have hlt : s.buf.utf8Value s.pos.toNat ((s.buf.octet s.pos.toNat).toNat - lo) k < 2 ^ w :=
    calc _ < ((s.buf.octet s.pos.toNat).toNat - lo + 1) * 64 ^ k := s.buf.utf8Value_lt _ _ _
      _ ≤ (hi - lo + 1) * 64 ^ k := Nat.mul_le_mul_right _ (by omega)
      _ ≤ 2 ^ w := hfit _ hrow hk
  rw [exec_utf8_of_value hf hs hinit (by omega) hending, BitVec.setWidth_ofNat_of_le_of_lt hw hlt]

/-- Settles O47: the leading byte is of no row, or of the one row above the cap of the 32-bit forms. -/
theorem utf8LeadingByteFails : Obligations.Utf8LeadingByteFails := by
  intro i w kMax s hf hs hi hle hbad
  refine exec_utf8_of_failure (n := 1) hf hs hi le_rfl ?_
  rw [Memory.utf8Ending, if_neg (by omega)]
  obtain hcont | hff | ⟨hfe, rfl⟩ := hbad
  · rw [leadByte_of_isContinuation ((s.buf.isContinuation_octet _).2 hcont)]
  · rw [hff, show leadByte 0xFF = none from rfl]
  · rw [hfe, show leadByte 0xFE = some (6, 0) from rfl]
    exact if_pos (by omega)

/-- Settles O48: the decode ends at the first continuation byte that does not match. -/
theorem utf8ContinuationByteFails : Obligations.Utf8ContinuationByteFails := by
  intro i w kMax lo hi k j s hf hrow hs hinit hk hj hle hlo hhi hc hbad
  obtain ⟨r, rfl⟩ := Nat.exists_eq_add_of_lt hj
  have hending := Memory.utf8Ending_of_continues (w := w) (r := r + 1) hrow hk (by omega) hlo hhi hc
  rw [Memory.utf8Tail, if_neg (by omega), if_neg (mt (s.buf.isContinuation_octet _).1 hbad), Prod.map_apply,
    show 1 + (j + 1) = j + 2 by omega] at hending
  exact exec_utf8_of_failure hf hs hinit (by omega) hending

/-- Settles O49: the decode ends at the first byte that does not lie in the buffer, the leading one or a later one. -/
theorem utf8RollsBackAtTheEndOfTheBuffer : Obligations.Utf8RollsBackAtTheEndOfTheBuffer := by
  refine fun i w kMax s hf hs hi => ⟨fun hend => ?_, fun lo hi' k j hrow hk hj hle hend hlo hhi hc => ?_⟩
  · exact exec_utf8_of_endOfStream (n := 0) hf hs hi (by rw [Memory.utf8Ending, if_pos hend])
  · obtain ⟨r, rfl⟩ := Nat.exists_eq_add_of_lt hj
    have hending := Memory.utf8Ending_of_continues (w := w) (r := r + 1) hrow hk hle hlo hhi hc
    rw [Memory.utf8Tail, if_pos (by omega), Prod.map_apply, Nat.zero_add] at hending
    exact exec_utf8_of_endOfStream hf hs hi hending

end Sys2Proof.Machine

/-! SUPPORT. The checksum as a division over GF(2) in a register of `w` bits, the table step as eight steps of that
division, and the statements on the CRC commands that follow (42_crc.md). -/

namespace Sys2Proof.Machine

/-! ## The division register -/

section Division
variable {w : Nat} (poly : Nat)

/-- One step of the division, as a register of `w` bits makes it: the next bit of the dividend comes in below, and the
bit shifted out above subtracts the divisor. `gf2DivStep_eq_toNat` ties it to the division on numbers. -/
def divStep (r : BitVec w) (b : Bool) : BitVec w := r.shiftConcat b ^^^ if r.msb then BitVec.ofNat w poly else 0

/-- Multiplication by `x` modulo the divisor. -/
def timesX (r : BitVec w) : BitVec w := divStep poly r false

/-- The remainder of a list of coefficients, highest first; `gf2Remainder_eq_toNat` ties it to `gf2Remainder`. -/
def remainder (bits : List Bool) : BitVec w := bits.foldl (divStep poly) 0

theorem ofNat_ite_xor (n : Nat) (c : Prop) [Decidable c] :
    BitVec.ofNat w (if c then n ^^^ poly else n) = BitVec.ofNat w n ^^^ if c then BitVec.ofNat w poly else 0 := by
  split <;> simp [BitVec.ofNat_xor]

/-- A step of the table construction multiplies by `x` modulo the divisor (42_crc.md R140, R141). -/
theorem ofNat_crcDivStep (hw : 0 < w) (c : Nat) :
    BitVec.ofNat w (crcDivStep w poly c) = timesX poly (BitVec.ofNat w c) := by
  have hmsb : (BitVec.ofNat w c).msb = c.testBit (w - 1) := by
    rw [BitVec.msb_eq_getLsbD_last, BitVec.getLsbD_ofNat, decide_eq_true (by omega), Bool.true_and]
  have hshift : BitVec.ofNat w (c <<< 1) = (BitVec.ofNat w c).shiftConcat false :=
    BitVec.eq_of_toNat_eq (by simp [BitVec.toNat_shiftConcat, Nat.shiftLeft_eq])
  rw [crcDivStep, ofNat_ite_xor, timesX, divStep, hmsb, hshift]

/-- A table entry is `i(x) * x^w` modulo the divisor (42_crc.md R141). -/
theorem crcEntry_eq (hw : 0 < w) (i : Nat) : crcEntry w poly i = (timesX poly)^[w] (BitVec.ofNat w i) := by
  have h (n : Nat) : BitVec.ofNat w (Nat.repeat (crcDivStep w poly) n i) = (timesX poly)^[n] (BitVec.ofNat w i) := by
    induction n with
    | zero => rfl
    | succ n ih => rw [Nat.repeat, ofNat_crcDivStep poly hw, ih, Function.iterate_succ_apply']
  exact h w

/-- The same, for an entry of the built table. -/
theorem tableAt_crcBuild_eq (hw : 0 < w) (b : Byte) :
    tableAt (crcBuild w poly) b = (timesX poly)^[w] (b.setWidth w) := by
  rw [tableAt_crcBuild, crcEntry_eq poly hw, BitVec.ofNat_toNat]

variable {poly}

/-- A division step by a divisor of degree `w` leaves a remainder of lower degree. -/
theorem gf2DivStep_lt (hw : 0 < w) (hpoly : poly.log2 = w) (r : BitVec w) (b : Bool) :
    gf2DivStep w poly r.toNat b < 2 ^ w := by
  have hne : poly ≠ 0 := by rintro rfl; rw [Nat.log2_zero] at hpoly; omega
  have hr := r.isLt
  have hb := b.toNat_lt
  have htop : poly.testBit w = true := hpoly ▸ Nat.testBit_log2 hne
  have hplt : poly < 2 ^ (w + 1) := hpoly ▸ Nat.lt_log2_self
  have hn : 2 * r.toNat + b.toNat < 2 ^ (w + 1) := by rw [pow_succ]; omega
  have habove {n i : Nat} (h : n < 2 ^ (w + 1)) (hi : w < i) : n.testBit i = false :=
    Nat.testBit_lt_two_pow (h.trans_le (Nat.pow_le_pow_right (by omega) hi))
  refine Nat.lt_pow_two_of_testBit _ fun i hi => ?_
  rw [gf2DivStep]
  split
  case isTrue h =>
    rw [Nat.testBit_xor]
    obtain rfl | hi := Nat.eq_or_lt_of_le hi
    · rw [h, htop]; rfl
    · rw [habove hn hi, habove hplt hi]; rfl
  case isFalse h =>
    obtain rfl | hi := Nat.eq_or_lt_of_le hi
    · exact eq_false_of_ne_true h
    · exact habove hn hi

/-- The division step on numbers is the register's. -/
theorem gf2DivStep_eq_toNat (hw : 0 < w) (hpoly : poly.log2 = w) (r : BitVec w) (b : Bool) :
    gf2DivStep w poly r.toNat b = (divStep poly r b).toNat := by
  have hmsb : (2 * r.toNat + b.toNat).testBit w = r.msb := by
    obtain ⟨v, rfl⟩ := Nat.exists_eq_add_of_lt hw
    have hb := b.toNat_lt
    rw [BitVec.msb_eq_getLsbD_last, BitVec.getLsbD, Nat.testBit_succ]
    congr 1; omega
  have hshift : BitVec.ofNat w (2 * r.toNat + b.toNat) = r.shiftConcat b :=
    BitVec.eq_of_toNat_eq (by simp [BitVec.toNat_shiftConcat, Nat.shiftLeft_eq, Nat.mul_comm])
  have h : BitVec.ofNat w (gf2DivStep w poly r.toNat b) = divStep poly r b := by
    rw [gf2DivStep, ofNat_ite_xor, hmsb, hshift, divStep]
  rw [← h, BitVec.toNat_ofNat, Nat.mod_eq_of_lt (gf2DivStep_lt hw hpoly r b)]

/-- The division on numbers is the register's. -/
theorem gf2Remainder_eq_toNat (hw : 0 < w) (hpoly : poly.log2 = w) (bits : List Bool) :
    gf2Remainder w poly bits = (remainder poly bits : BitVec w).toNat :=
  List.foldl_hom (init := (0 : BitVec w)) BitVec.toNat fun r b => gf2DivStep_eq_toNat hw hpoly r b

/-! ## Linearity -/

variable (poly)

/-- The division step is linear over GF(2), in the register and the bit together. -/
theorem divStep_xor (r r' : BitVec w) (b b' : Bool) :
    divStep poly (r ^^^ r') (b ^^ b') = divStep poly r b ^^^ divStep poly r' b' := by
  have hshift : (r ^^^ r').shiftConcat (b ^^ b') = r.shiftConcat b ^^^ r'.shiftConcat b' := by
    refine BitVec.eq_of_getLsbD_eq fun i hi => ?_
    simp only [BitVec.getLsbD_xor, BitVec.getLsbD_shiftConcat, hi, decide_true, Bool.true_and]
    split <;> rfl
  have hsub : (if (r ^^^ r').msb then BitVec.ofNat w poly else 0) =
      (if r.msb then BitVec.ofNat w poly else 0) ^^^ if r'.msb then BitVec.ofNat w poly else 0 := by
    rw [BitVec.msb_xor]
    cases r.msb <;> cases r'.msb <;> simp
  rw [divStep, divStep, divStep, hshift, hsub]
  ac_rfl

theorem iterate_timesX_xor (n : Nat) (r r' : BitVec w) :
    (timesX poly)^[n] (r ^^^ r') = (timesX poly)^[n] r ^^^ (timesX poly)^[n] r' := by
  induction n generalizing r r' with
  | zero => rfl
  | succ n ih =>
    rw [Function.iterate_succ_apply, timesX, ← Bool.xor_false false, divStep_xor]
    exact ih _ _

theorem iterate_timesX_zero (n : Nat) : (timesX poly)^[n] (0 : BitVec w) = 0 := by
  have h := iterate_timesX_xor poly n (0 : BitVec w) 0
  rwa [BitVec.xor_self, BitVec.xor_self] at h

/-- Started at `r`, the division adds `r(x) * x^n` for the `n` bits it takes. -/
theorem foldl_divStep (r : BitVec w) (bits : List Bool) :
    bits.foldl (divStep poly) r = (timesX poly)^[bits.length] r ^^^ remainder poly bits := by
  induction bits generalizing r with
  | nil => simp [remainder]
  | cons b bits ih =>
    have hstep : divStep poly r b = timesX poly r ^^^ divStep poly 0 b := by
      rw [timesX, ← divStep_xor, Bool.false_xor]
      exact congrArg (divStep poly · b) BitVec.xor_zero.symm
    rw [List.foldl_cons, ih, hstep, iterate_timesX_xor, BitVec.xor_assoc, ← ih]
    rfl

theorem remainder_append (bits bits' : List Bool) :
    (remainder poly (bits ++ bits') : BitVec w) =
      (timesX poly)^[bits'.length] (remainder poly bits) ^^^ remainder poly bits' := by
  rw [remainder, List.foldl_append, foldl_divStep]; rfl

/-- The last bit is the last step. -/
theorem remainder_concat (bits : List Bool) (b : Bool) :
    (remainder poly (bits ++ [b]) : BitVec w) = divStep poly (remainder poly bits) b :=
  List.foldl_concat ..

/-- `n` zeros at the end multiply by `x^n`. -/
theorem remainder_append_zeros (bits : List Bool) (n : Nat) :
    (remainder poly (bits ++ List.replicate n false) : BitVec w) = (timesX poly)^[n] (remainder poly bits) := by
  have h (r : BitVec w) : (List.replicate n false).foldl (divStep poly) r = (timesX poly)^[n] r := by
    induction n generalizing r with
    | zero => rfl
    | succ n ih => exact ih _
  rw [remainder, List.foldl_append, h]; rfl

/-! ## Bytes -/

/-- While no set bit is shifted out, multiplying by `x^n` is a shift. -/
theorem iterate_timesX_of_lt {n : Nat} (hn : n ≤ w) {r : BitVec w} (hr : r.toNat < 2 ^ (w - n)) :
    (timesX poly)^[n] r = r <<< n := by
  induction n with
  | zero => simp
  | succ n ih =>
    have hlt : r.toNat < 2 ^ (w - n) := hr.trans_le (Nat.pow_le_pow_right (by omega) (by omega))
    have hmsb : (r <<< n).msb = false := by
      have hbit : r.getLsbD (w - 1 - n) = false := Nat.testBit_lt_two_pow (by rwa [Nat.sub_sub, Nat.add_comm])
      rw [BitVec.msb_eq_getLsbD_last, BitVec.getLsbD_shiftLeft, hbit, Bool.and_false]
    have hshift : (r <<< n).shiftConcat false = r <<< (n + 1) := by
      rw [BitVec.shiftLeft_add]
      exact BitVec.eq_of_toNat_eq (by simp [BitVec.toNat_shiftConcat, BitVec.toNat_shiftLeft])
    rw [Function.iterate_succ_apply', ih (by omega) hlt, timesX, divStep, hmsb, hshift]
    exact BitVec.xor_zero

/-- A register is its low bits and its `k` highest bits. -/
theorem shiftLeft_ushiftRight_xor_high {k : Nat} (hk : k ≤ w) (r : BitVec w) :
    (r <<< k >>> k) ^^^ (r >>> (w - k) <<< (w - k)) = r := by
  refine BitVec.eq_of_getLsbD_eq fun i hi => ?_
  simp only [BitVec.getLsbD_xor, BitVec.getLsbD_ushiftRight, BitVec.getLsbD_shiftLeft]
  by_cases h : i < w - k
  · simp [h, hi, show k + i < w by omega]
  · simp [h, hi, show ¬ k + i < w by omega, show w - k + (i - (w - k)) = i by omega]

/-- Only the low bits are still there after a shift to the left. -/
theorem shiftLeft_ushiftRight_shiftLeft (k : Nat) (r : BitVec w) : r <<< k >>> k <<< k = r <<< k := by
  refine BitVec.eq_of_getLsbD_eq fun i hi => ?_
  simp only [BitVec.getLsbD_ushiftRight, BitVec.getLsbD_shiftLeft]
  by_cases h : i < k
  · simp [h]
  · simp [h, hi, show k + (i - k) = i by omega]

/-- Multiplying by `x^k` shifts, and what is shifted out on top comes back times `x^w` modulo the divisor. -/
theorem iterate_timesX_eq {k : Nat} (hk : k ≤ w) (r : BitVec w) :
    (timesX poly)^[k] r = (r <<< k) ^^^ (timesX poly)^[w] (r >>> (w - k)) := by
  have hlow : (r <<< k >>> k).toNat < 2 ^ (w - k) := BitVec.toNat_ushiftRight_lt _ _ hk
  have hhigh : (r >>> (w - k)).toNat < 2 ^ (w - (w - k)) := BitVec.toNat_ushiftRight_lt _ _ (Nat.sub_le w k)
  calc (timesX poly)^[k] r
      = (timesX poly)^[k] (r <<< k >>> k) ^^^ (timesX poly)^[k] (r >>> (w - k) <<< (w - k)) := by
        rw [← iterate_timesX_xor, shiftLeft_ushiftRight_xor_high hk]
    _ = (r <<< k) ^^^ (timesX poly)^[w] (r >>> (w - k)) := by
        rw [iterate_timesX_of_lt poly hk hlow, shiftLeft_ushiftRight_shiftLeft,
          ← iterate_timesX_of_lt poly (Nat.sub_le w k) hhigh, ← Function.iterate_add_apply, Nat.add_sub_cancel' hk]

/-- The bits of a byte, the most significant first (42_crc.md R147). -/
def byteBits (b : Byte) : List Bool := (List.range 8).map fun j => b.getLsbD (7 - j)

@[simp] theorem byteBits_length (b : Byte) : (byteBits b).length = 8 := by simp [byteBits]

/-- The byte's next bit comes in below the `n` bits above it. -/
theorem shiftConcat_byte {n : Nat} (hn : n < 8) (b : Byte) :
    ((b >>> (8 - n)).setWidth w).shiftConcat (b.getLsbD (7 - n)) = (b >>> (8 - (n + 1))).setWidth w := by
  refine BitVec.eq_of_getLsbD_eq fun i hi => ?_
  simp only [BitVec.getLsbD_shiftConcat, BitVec.getLsbD_setWidth, BitVec.getLsbD_ushiftRight, hi, decide_true,
    Bool.true_and]
  split
  · congr 1; omega
  · rw [decide_eq_true (by omega), Bool.true_and]
    congr 1; omega

/-- The `n` highest bits of a byte are their own remainder, where the divisor has a degree of at least 8. -/
theorem remainder_byte_high (hw : 8 ≤ w) (b : Byte) {n : Nat} (hn : n ≤ 8) :
    remainder poly ((List.range n).map fun j => b.getLsbD (7 - j)) = (b >>> (8 - n)).setWidth w := by
  induction n with
  | zero => rw [Nat.sub_zero, BitVec.ushiftRight_eq_zero le_rfl, BitVec.setWidth_zero]; rfl
  | succ n ih =>
    have hmsb : ((b >>> (8 - n)).setWidth w).msb = false := by
      rw [BitVec.msb_eq_getLsbD_last, BitVec.getLsbD_setWidth, BitVec.getLsbD_ushiftRight,
        BitVec.getLsbD_of_ge b _ (by omega), Bool.and_false]
    rw [List.range_succ, List.map_append, List.map_singleton, remainder_concat, ih (by omega), divStep, hmsb,
      shiftConcat_byte hn]
    exact BitVec.xor_zero

/-- A byte is its own remainder, where the divisor has a degree of at least 8. -/
theorem remainder_byteBits (hw : 8 ≤ w) (b : Byte) : remainder poly (byteBits b) = b.setWidth w :=
  remainder_byte_high poly hw b le_rfl

/-- The range's bits, byte by byte. -/
theorem Memory.rangeBits_succ (m : Memory) (off cnt : Nat) :
    m.rangeBits off (cnt + 1) = m.rangeBits off cnt ++ byteBits (m.byteAt (off + cnt)) := by
  have hbit : ∀ j < 8, m.streamBit (8 * off + (8 * cnt + j)) = (m.byteAt (off + cnt)).getLsbD (7 - j) := by
    intro j hj
    rw [Memory.streamBit, show (8 * off + (8 * cnt + j)) / 8 = off + cnt by omega,
      show (8 * off + (8 * cnt + j)) % 8 = j by omega]
  rw [Memory.rangeBits, Nat.mul_succ, List.range_add, List.map_append, List.map_map]
  congr 1
  exact List.map_congr_left fun j hj => hbit j (List.mem_range.1 hj)

end Division

/-! ## The table step -/

section TableStep
variable {w : Nat}

/-- The step that both checksums make over a byte: the register shifted by 8, and the table's entry for the byte that
is shifted out with the message byte added. -/
def tableStep (t : Vector (BitVec w) 256) (r : BitVec w) (b : Byte) : BitVec w :=
  (r <<< 8) ^^^ tableAt t ((r >>> (w - 8)).setWidth 8 ^^^ b)

/-- The table of 16-bit entries makes this step as it stands (42_crc.md R145). -/
theorem crc16Step_eq (t : Vector (BitVec 16) 256) : crc16Step t = tableStep t := rfl

/-- With 8-bit entries all of the register is shifted out (42_crc.md R144). -/
theorem crc8Step_eq (t : Vector (BitVec 8) 256) : crc8Step t = tableStep t := by
  funext r b
  rw [crc8Step, tableStep, BitVec.shiftLeft_eq_zero le_rfl, BitVec.zero_xor, BitVec.setWidth_eq,
    BitVec.ushiftRight_zero]

/-- A table step is eight steps of the division with the byte added on top. -/
theorem tableStep_crcBuild (poly : Nat) (hw : 8 ≤ w) (r : BitVec w) (b : Byte) :
    tableStep (crcBuild w poly) r b = (timesX poly)^[8] r ^^^ (timesX poly)^[w] (b.setWidth w) := by
  have hhigh : ((r >>> (w - 8)).setWidth 8).setWidth w = r >>> (w - 8) := by
    have hlt : (r >>> (w - 8)).toNat < 2 ^ 8 :=
      (BitVec.toNat_ushiftRight_lt r _ (Nat.sub_le w 8)).trans_eq (by rw [Nat.sub_sub_self hw])
    refine BitVec.eq_of_toNat_eq ?_
    rw [BitVec.toNat_setWidth, BitVec.toNat_setWidth, Nat.mod_eq_of_lt hlt, Nat.mod_eq_of_lt (BitVec.isLt _)]
  rw [tableStep, tableAt_crcBuild_eq poly (by omega), BitVec.setWidth_xor, hhigh, iterate_timesX_xor,
    iterate_timesX_eq poly hw, BitVec.xor_assoc]

/-- The loop over a range is the division of the message by the polynomial (42_crc.md R147). -/
theorem crcLoop_tableStep (poly : Nat) (hw : 8 ≤ w) (m : Memory) (off cnt : Nat) :
    crcLoop (tableStep (crcBuild w poly)) m off cnt 0 = (timesX poly)^[w] (remainder poly (m.rangeBits off cnt)) := by
  induction cnt with
  | zero => exact (iterate_timesX_zero poly w).symm
  | succ cnt ih =>
    rw [crcLoop_succ, ih, tableStep_crcBuild poly hw, Memory.rangeBits_succ, remainder_append,
      remainder_byteBits poly hw, iterate_timesX_xor, byteBits_length, ← Function.iterate_add_apply,
      ← Function.iterate_add_apply, Nat.add_comm 8 w]

/-- A byte that equals the register's high byte cancels it, so the register is only shifted (42_crc.md R147). -/
theorem crcLoop_high_byte (poly : Nat) (hw : 8 ≤ w) {m : Memory} {off cnt : Nat} {r : BitVec w}
    (hr : crcLoop (tableStep (crcBuild w poly)) m off cnt 0 = r)
    (hbyte : m.byteAt (off + cnt) = (r >>> (w - 8)).setWidth 8) :
    crcLoop (tableStep (crcBuild w poly)) m off (cnt + 1) 0 = r <<< 8 := by
  rw [crcLoop_succ, hr, hbyte, tableStep, BitVec.xor_self, tableAt_crcBuild_eq poly (by omega), BitVec.setWidth_zero]
  exact (congrArg _ (iterate_timesX_zero poly w)).trans BitVec.xor_zero

end TableStep

/-! ## The tables -/

/-- A table entry is the remainder of its index with `w` zeros appended (42_crc.md R141). -/
theorem tableAt_crcBuild_toNat {w poly : Nat} (hw : 8 ≤ w) (hpoly : poly.log2 = w) (b : Byte) :
    (tableAt (crcBuild w poly) b).toNat = gf2Remainder w poly (byteBits b ++ List.replicate w false) := by
  rw [gf2Remainder_eq_toNat (by omega) hpoly, remainder_append_zeros, remainder_byteBits poly hw,
    tableAt_crcBuild_eq poly (by omega)]

/-- Settles O14: both polynomials have the degree of their table's width. -/
theorem checksumTablesHoldPolynomialRemainders : Obligations.ChecksumTablesHoldPolynomialRemainders :=
  fun i => ⟨tableAt_crcBuild_toNat (by decide) (by decide) i, tableAt_crcBuild_toNat (by decide) (by decide) i⟩

/-! ## The commands -/

/-- The shape of the two checksum commands: the range check, then the loop from 0 (42_crc.md R144, R145). -/
def checksum {w : Nat} (step : State → BitVec w → Byte → BitVec w) (off cnt : Nat) (s : State) : Result :=
  if s.buf.len < off + cnt then raise .outOfRange s
  else respond (.value (crcLoop (step s) s.buf off cnt 0)) (s.countCrcReads cnt)

theorem exec_crc8 (off cnt : Nat) : exec (.crc8 off cnt) = checksum (fun s => crc8Step s.t8) off cnt := rfl

theorem exec_crc16 (off cnt : Nat) : exec (.crc16 off cnt) = checksum (fun s => crc16Step s.t16) off cnt := rfl

section
variable {w off cnt : Nat} {i : Instr} {step : State → BitVec w → Byte → BitVec w} {s : State}
  (hexec : exec i = checksum step off cnt)
include hexec

/-- A range that is not in the buffer raises OutOfRange (42_crc.md R146). -/
theorem exec_outOfRange_of_checksum (h : s.buf.len < off + cnt) : exec i s = .next (s.erred 2) := by
  rw [hexec]
  exact if_pos h

/-- Over a range in the buffer the loop's value is answered, and only the byte reads are counted (42_crc.md R144,
R145). -/
theorem exec_eq_of_checksum (h : off + cnt ≤ s.buf.len) :
    exec i s = .next ((s.countCrcReads cnt).returned ((crcLoop (step s) s.buf off cnt 0).setWidth 64)) := by
  rw [hexec]
  exact if_neg (by omega)

/-- The value that is answered is the loop's. -/
theorem crcLoop_eq_of_returned (hw : w ≤ 64) (h : off + cnt ≤ s.buf.len) {r : BitVec w}
    (hr : exec i s = .next ((s.countCrcReads cnt).returned (r.setWidth 64))) :
    crcLoop (step s) s.buf off cnt 0 = r := by
  have hstate := next_unique (exec_eq_of_checksum hexec h) hr
  have hresponse := State.response_of_answer (s := s.countCrcReads cnt) (congrArg State.responses hstate)
  have hdata := congrArg (BitVec.setWidth w ∘ Response.data) hresponse
  simpa [BitVec.setWidth_setWidth_of_le _ hw] using hdata

end

/-- An unsigned word's value fits its word. -/
theorem fitsUnsigned32_toNat (a : Word) : fitsUnsigned32 a.toNat = true := decide_eq_true a.isLt

theorem fitsUnsigned32_range (a b : Word) : (fitsUnsigned32 a.toNat && fitsUnsigned32 b.toNat) = true :=
  Bool.and_eq_true_iff.2 ⟨fitsUnsigned32_toNat a, fitsUnsigned32_toNat b⟩

/-- `CW = 0x00000020` is CRC8 with unsigned operands (30_encoding.md R62, R64). -/
theorem decode_crc8 (a b : Word) : decode ⟨0x00000020, a, b⟩ = .ok (.crc8 a.toNat b.toNat) :=
  decode_word (show (0x00000020 : Word) = commandWord 0x20 0 from rfl) (fitsUnsigned32_range a b)
    (fun _ => BitVec.ofNat_toNat 32 a) (fun _ => BitVec.ofNat_toNat 32 b)

/-- `CW = 0x00000021` is CRC16 with unsigned operands (30_encoding.md R62, R64). -/
theorem decode_crc16 (a b : Word) : decode ⟨0x00000021, a, b⟩ = .ok (.crc16 a.toNat b.toNat) :=
  decode_word (show (0x00000021 : Word) = commandWord 0x21 0 from rfl) (fitsUnsigned32_range a b)
    (fun _ => BitVec.ofNat_toNat 32 a) (fun _ => BitVec.ofNat_toNat 32 b)

/-- Settles O51: the last byte of the range is the loop's last step. -/
theorem crc8FollowsTheTable : Obligations.Crc8FollowsTheTable := by
  refine fun off cnt s => ⟨decode_crc8, exec_outOfRange_of_checksum (exec_crc8 off cnt),
    exec_eq_of_checksum (exec_crc8 off 0),
    fun hs hle => ⟨_, exec_eq_of_checksum (exec_crc8 off cnt) (by omega), ?_⟩⟩
  rw [exec_eq_of_checksum (exec_crc8 off (cnt + 1)) hle, crcLoop_succ, crc8Step, hs.t8]
  rfl

/-- Settles O52: the last byte of the range is the loop's last step. -/
theorem crc16FollowsTheTable : Obligations.Crc16FollowsTheTable := by
  refine fun off cnt s => ⟨decode_crc16, exec_outOfRange_of_checksum (exec_crc16 off cnt),
    exec_eq_of_checksum (exec_crc16 off 0),
    fun hs hle => ⟨_, exec_eq_of_checksum (exec_crc16 off cnt) (by omega), ?_⟩⟩
  rw [exec_eq_of_checksum (exec_crc16 off (cnt + 1)) hle, crcLoop_succ, crc16Step, hs.t16]
  rfl

/-- In a sound state CRC8 steps by the built table (10_state.md R29). -/
theorem State.Sound.crc8Step_t8 {s : State} (hs : s.Sound) :
    crc8Step s.t8 = tableStep (crcBuild 8 0x107) := by
  rw [crc8Step_eq, hs.t8]; rfl

/-- In a sound state CRC16 steps by the built table (10_state.md R29). -/
theorem State.Sound.crc16Step_t16 {s : State} (hs : s.Sound) :
    crc16Step s.t16 = tableStep (crcBuild 16 0x18005) := by
  rw [crc16Step_eq, hs.t16]; rfl

/-- A command that steps by a built table answers the message's remainder (42_crc.md R147). -/
theorem exec_eq_polynomialCrc {w poly off cnt : Nat} {i : Instr} {step : State → BitVec w → Byte → BitVec w}
    {s : State} (hexec : exec i = checksum step off cnt) (hstep : step s = tableStep (crcBuild w poly)) (hw : 8 ≤ w)
    (hpoly : poly.log2 = w) (h : off + cnt ≤ s.buf.len) :
    exec i s = .next ((s.countCrcReads cnt).returned (BitVec.ofNat 64 (s.buf.polynomialCrc w poly off cnt))) := by
  rw [exec_eq_of_checksum hexec h, hstep, crcLoop_tableStep poly hw, Memory.polynomialCrc,
    gf2Remainder_eq_toNat (by omega) hpoly, remainder_append_zeros, BitVec.ofNat_toNat]

/-- Settles O53: both commands step by built tables, and both polynomials have the degree of their table's width. -/
theorem checksumsArePolynomialRemainders : Obligations.ChecksumsArePolynomialRemainders := fun off cnt _ hs hle =>
  ⟨exec_eq_polynomialCrc (exec_crc8 off cnt) hs.crc8Step_t8 (by decide) (by decide) hle,
    exec_eq_polynomialCrc (exec_crc16 off cnt) hs.crc16Step_t16 (by decide) (by decide) hle⟩

/-- Settles O54: each appended byte cancels the register's high byte, so the register is shifted out. -/
theorem appendingTheChecksumGivesZero : Obligations.AppendingTheChecksumGivesZero := by
  refine fun off cnt s hs => ⟨fun r hle hr hbyte => ?_, fun r hle hr hhigh hlow => ?_⟩
  · have hmessage := crcLoop_eq_of_returned (exec_crc8 off cnt) (by decide) (by omega) hr
    rw [hs.crc8Step_t8] at hmessage
    have hcancel : r = (r >>> (8 - 8)).setWidth 8 := by rw [Nat.sub_self, BitVec.ushiftRight_zero, BitVec.setWidth_eq]
    rw [exec_eq_of_checksum (exec_crc8 off (cnt + 1)) hle, hs.crc8Step_t8,
      crcLoop_high_byte _ le_rfl hmessage (hbyte.trans hcancel), BitVec.shiftLeft_eq_zero le_rfl]
    rfl
  · have hmessage := crcLoop_eq_of_returned (exec_crc16 off cnt) (by decide) (by omega) hr
    rw [hs.crc16Step_t16] at hmessage
    have hcancel : r.extractLsb' 0 8 = (r <<< 8 >>> (16 - 8)).setWidth 8 := by
      refine BitVec.eq_of_toNat_eq ?_
      simp only [BitVec.extractLsb'_toNat, BitVec.toNat_setWidth, BitVec.toNat_ushiftRight, BitVec.toNat_shiftLeft,
        Nat.shiftLeft_eq, Nat.shiftRight_eq_div_pow]
      omega
    have hshifted := crcLoop_high_byte _ (by decide) hmessage hhigh
    rw [exec_eq_of_checksum (exec_crc16 off (cnt + 2)) hle, hs.crc16Step_t16,
      crcLoop_high_byte _ (by decide) hshifted (hlow.trans hcancel), ← BitVec.shiftLeft_add,
      BitVec.shiftLeft_eq_zero le_rfl]
    rfl

end Sys2Proof.Machine

/-! SUPPORT. What a command may answer, and the statements on the errors and the pattern failures that follow
(60_exceptions.md). -/

namespace Sys2Proof.Machine

/-! ## Error responses -/

/-- A legal response with an error has a code of at most 5 and carries no result (60_exceptions.md R160, R161). -/
theorem Response.error_of_legal {r : Response} (h : r.legal = true) (he : r.err ≠ 0) :
    r.err.toNat ≤ 5 ∧ r.valid = false ∧ r.data = 0 := by
  rw [Response.legal, if_neg he, Bool.and_eq_true, Bool.and_eq_true] at h
  obtain ⟨⟨hcode, hvalid⟩, hdata⟩ := h
  exact ⟨of_decide_eq_true hcode, by simpa using hvalid, by simpa using hdata⟩

/-- The codes 6 and 7 are not legal (60_exceptions.md R160). -/
theorem Response.err_le_of_legal {r : Response} (h : r.legal = true) : r.err.toNat ≤ 5 := by
  by_cases he : r.err = 0
  · rw [he]
    decide
  · exact (Response.error_of_legal h he).1

/-- Settles O22: an error's ending is legal, keeps all but the cursor, and is precise (`Ends`). -/
theorem errorsWriteNoState : Obligations.ErrorsWriteNoState := by
  intro i s t r ht hr he
  obtain ⟨u, rfl, hends⟩ := exec_response ht hr
  obtain ⟨-, hvalid, hdata⟩ := Response.error_of_legal hends.legal he
  obtain ⟨hinit, hpos, hla⟩ := hends.precise he
  exact ⟨hvalid, hdata, hinit, hpos, hla, hends.keeps.buf, congrArg (· + 1) hends.keeps.k, hends.keeps.program⟩

/-! ## Pattern failures -/

/-- The response has no result and no error only on a UTF-8-like read, with its sentinel (60_exceptions.md R163). -/
def Response.FailsOnlyByPattern (i : Instr) (r : Response) : Prop :=
  r.err = 0 → r.valid = false → ∃ w k, (i, w, k) ∈ utf8Forms ∧ r.data = BitVec.ofNat 64 (2 ^ w - 1)

/-- A result that answers one such response. -/
def AnswersByPattern (i : Instr) (res : Result) : Prop :=
  ∃ (u : State) (r : Response), res = .next (u.answer r) ∧ Response.FailsOnlyByPattern i r

section
variable {i : Instr}

theorem raise_byPattern (e : ErrorKind) (s : State) : AnswersByPattern i (raise e s) :=
  ⟨s, .error e, rfl, fun he => absurd he (Response.error_err_ne_zero e)⟩

theorem respond_byPattern {r : Response} (hr : r.valid = true) (s : State) : AnswersByPattern i (respond r s) :=
  ⟨s, r, rfl, fun _ hf => absurd (hf.symm.trans hr) Bool.false_ne_true⟩

theorem AnswersByPattern.ite {c : Prop} [Decidable c] {a b : Result} (ha : AnswersByPattern i a)
    (hb : AnswersByPattern i b) : AnswersByPattern i (if c then a else b) := by
  split
  · exact ha
  · exact hb

/-- A check that raises an error adds no pattern failure to what the read answers (40_cursor_fixed.md R81). -/
theorem checkedRead_byPattern (check : State → Option ErrorKind) {read : State → Result} (s : State)
    (h : AnswersByPattern i (read s)) : AnswersByPattern i (checkedRead check read s) := by
  cases hc : check s with
  | some e => exact checkedRead_of_some hc read ▸ raise_byPattern e s
  | none => exact checkedRead_of_none hc read ▸ h

theorem widthRead_byPattern {w max n : Nat} {read : State → BitVec w × State} {cast : BitVec w → BitVec w}
    (hexec : exec i = widthRead max n read cast) (s : State) : AnswersByPattern i (exec i s) :=
  hexec ▸ checkedRead_byPattern _ s (respond_byPattern rfl _)

theorem unaryRead_byPattern {cast : Word → Word} (hexec : exec i = unaryRead cast) (s : State) :
    AnswersByPattern i (exec i s) :=
  hexec ▸ checkedRead_byPattern _ s (respond_byPattern rfl _)

theorem checksum_byPattern {w off cnt : Nat} {step : State → BitVec w → Byte → BitVec w}
    (hexec : exec i = checksum step off cnt) (s : State) : AnswersByPattern i (exec i s) :=
  hexec ▸ .ite (raise_byPattern _ s) (respond_byPattern rfl _)

/-- The sentinel zero-extended into `DATA` is all ones in the width of its read (30_encoding.md R66). -/
theorem failed_byPattern {w kMax : Nat} (hf : (i, w, kMax) ∈ utf8Forms) (s : State) :
    AnswersByPattern i (respond (.failed (BitVec.allOnes w)) s) := by
  refine ⟨s, _, rfl, fun _ _ => ⟨w, kMax, hf, ?_⟩⟩
  have hw : w ≤ 64 := (utf8Forms_fit _ hf).1
  rw [Response.failed, BitVec.allOnes, BitVec.ofNatLT_eq_ofNat, BitVec.setWidth_ofNat_of_le_of_lt hw (by simp)]

/-- A UTF-8-like read answers a value, its sentinel or an error, in any state (41_cursor_varlen.md R121). -/
theorem utf8_byPattern {w kMax : Nat} (hf : (i, w, kMax) ∈ utf8Forms) (s : State) :
    AnswersByPattern i (exec i s) := by
  rw [exec_utf8 hf, utf8Respond]
  refine .ite (raise_byPattern _ s) ?_
  obtain ⟨e, t⟩ := utf8Decode w kMax s
  cases e with
  | value v => exact respond_byPattern rfl t
  | failure => exact failed_byPattern hf t
  | endOfStream => exact raise_byPattern _ _

end

/-- The four UTF-8-like reads may answer their sentinel, and every other command answers a result or an error
(30_encoding.md R66). -/
theorem exec_byPattern (i : Instr) (s : State) : AnswersByPattern i (exec i s) := by
  cases i with
  | init bo => exact .ite (raise_byPattern _ s) (.ite (raise_byPattern _ s) (respond_byPattern rfl _))
  | seek n =>
    exact .ite (raise_byPattern _ s) (.ite (raise_byPattern _ s) (.ite (raise_byPattern _ s) (respond_byPattern rfl _)))
  | flush => exact .ite (raise_byPattern _ s) (.ite (respond_byPattern rfl s) (respond_byPattern rfl _))
  | rdbit => exact .ite (raise_byPattern _ s) (.ite (raise_byPattern _ s) (respond_byPattern rfl _))
  | rdb n => exact widthRead_byPattern (exec_rdb n) s
  | rdbs n => exact widthRead_byPattern (exec_rdbs n) s
  | rdb64 n => exact widthRead_byPattern (exec_rdb64 n) s
  | rdb64s n => exact widthRead_byPattern (exec_rdb64s n) s
  | rdun => exact unaryRead_byPattern exec_rdun s
  | rduns => exact unaryRead_byPattern exec_rduns s
  | rdu8 | rdu8s => exact utf8_byPattern (w := 32) (kMax := 5) (by decide) s
  | rdu8l | rdu8ls => exact utf8_byPattern (w := 64) (kMax := 6) (by decide) s
  | getpos | getla => exact .ite (raise_byPattern _ s) (respond_byPattern rfl s)
  | crc8 off cnt => exact checksum_byPattern (exec_crc8 off cnt) s
  | crc16 off cnt => exact checksum_byPattern (exec_crc16 off cnt) s

/-- Settles O23: the code is that of a legal ending, and a missing result without an error is a pattern failure
(`exec_byPattern`). -/
theorem responsesStayWithinTheInterface : Obligations.ResponsesStayWithinTheInterface := by
  intro i s t r ht hr
  obtain ⟨_, -, hends⟩ := exec_response ht hr
  obtain ⟨u, r', hu, hpattern⟩ := exec_byPattern i s
  obtain rfl := next_unique hu ht
  obtain rfl := State.response_of_answer hr
  exact ⟨Response.err_le_of_legal hends.legal, hpattern⟩

/-! ## The priority of errors -/

/-- Settles O11: a width of 0 is looked at before the buffer's end and after the cursor, and RDUN takes no width, so that a
command word with one is not legal. -/
theorem errorPriorityExamples : Obligations.ErrorPriorityExamples := by
  refine ⟨fun s hi _ => exec_outOfRange_of_widthRead (exec_rdb 0) hi (.inl Nat.one_pos),
    fun s hi => exec_eq_raise_of_init_false rfl rfl hi, fun _ _ => decode_word rfl rfl nofun nofun,
    fun s a b hf => step_of_not_legal hf fun hlegal => ?_⟩
  simpa [Command.n, Command.op, isWidthRead] using hlegal.n

end Sys2Proof.Machine

/-! SUPPORT. What RESET leaves in the state, and the statement on reset and hazards that follows
(70_reset_and_hazards.md). -/

namespace Sys2Proof.Machine

section AssertReset
variable (s : State) (p l : Word) (c : List Command)
@[simp] theorem State.assertReset_init : (s.assertReset p l c).init = false := rfl
@[simp] theorem State.assertReset_responses : (s.assertReset p l c).responses = [] := rfl
@[simp] theorem State.assertReset_t8 : (s.assertReset p l c).t8 = State.reset.t8 := rfl
@[simp] theorem State.assertReset_t16 : (s.assertReset p l c).t16 = State.reset.t16 := rfl
@[simp] theorem State.assertReset_lz8 : (s.assertReset p l c).lz8 = State.reset.lz8 := rfl
@[simp] theorem State.assertReset_buf : (s.assertReset p l c).buf = s.buf := rfl
end AssertReset

/-- Settles O19: RESET clears `init` at any state, so the guard every cursor command but INIT begins with raises
NotInitialised (`exec_eq_raise_of_init_false`), whose code is 4. -/
theorem resetDiscardsTheCursor : Obligations.ResetDiscardsTheCursor := fun s p l c =>
  ⟨s.assertReset_init p l c, s.assertReset_responses p l c, s.assertReset_t8 p l c, s.assertReset_t16 p l c,
    s.assertReset_lz8 p l c, s.assertReset_buf p l c,
    fun _ hcursor hinit => exec_eq_raise_of_init_false hcursor hinit (s.assertReset_init p l c)⟩

end Sys2Proof.Machine
